-- ==== Sys2Proof/Word.lean ====
section
/-! DEFINITION. The word types of the codec: a byte is 8 bits, unsigned (00_scope.md R10, 20_memory.md R51);
the one wider quantity is the 16-bit clamped PWM level (20_memory.md R51). -/

namespace Sys2Proof

/-- A byte, 0 to 255 (00_scope.md R10). -/
abbrev Byte := BitVec 8

/-- The source's `u16`, the type of the clamped PWM level (90_conflicts.md C1). -/
abbrev U16 := BitVec 16

end Sys2Proof
end

