-- ==== Sys2Proof/Config.lean ====
section
/-! DEFINITION. What is fixed for the machine: the protocol constants in one record with one admitted instance
(00_scope.md R8, 10_state.md R30) and the parameter LEVEL_W (00_scope.md R9). No free value is needed: the spec fixes
the result of every operation on every operand. -/

namespace Sys2Proof

/-- The protocol constants, under the spec's names (00_scope.md R8). -/
structure Config where
  /-- `HEADER`. -/
  header : Byte
  /-- `PWM_ADDRESS`. -/
  pwmAddress : Byte
  /-- `PWM_COMMAND`. -/
  pwmCommand : Byte
  /-- `GENERIC_COMMANDS`, a set: no order, no repeats. -/
  genericCommands : List Byte
  /-- `PWM_MAX`. -/
  pwmMax : Int
  /-- `PWM_MIN`. -/
  pwmMin : Int
  /-- `PWM_DATA_LEN`. -/
  pwmDataLen : Nat
  /-- `MAX_DATA_LEN`. -/
  maxDataLen : Nat
  /-- `MIN_FRAME_LEN`. -/
  minFrameLen : Nat
  /-- `MAX_FRAME_LEN`. -/
  maxFrameLen : Nat
  deriving DecidableEq, Repr

/-- The only admitted instance (00_scope.md R8). UNVERIFIED (log 8): the literals are unaudited, 93_implementation_defined.md U9.
Reducible, so that a condition on a constant's name and one on its literal are the same for `simp` and `omega`. -/
@[reducible] def config : Config where
  header := 0xAA
  pwmAddress := 0x52
  pwmCommand := 0x02
  genericCommands := [0x01, 0x02]
  pwmMax := 60000
  pwmMin := 0
  pwmDataLen := 2
  maxDataLen := 255
  minFrameLen := 5
  maxFrameLen := 260

/-- `LEVEL_W`, the width of the `level` port: the spec's default (00_scope.md R9). DESIGN CHOICE, log 4. -/
abbrev levelW : Nat := 32

/-- The pattern on the `level` port (10_state.md R23). -/
abbrev Level := BitVec levelW

end Sys2Proof
end

