-- ==== Sys2Proof/Syntax.lean ====
section
/-! DEFINITION. The instructions, one constructor per row of spec/opcode_table.json (30_encoding.md R97), and what HOST can
put before the block: a request record (10_state.md R23), a `CommandRequest` (10_state.md R27), a frame from the wire,
and reset (70_reset_and_hazards.md R210). -/

namespace Sys2Proof

/-- The instructions. The first four are the operations (30_encoding.md R92), each with the operands it reads and no
others; the last three are the wire commands (30_encoding.md R84, R97). -/
inductive Instr where
  /-- `encode_pwm(level)`, op 0 (41_pwm_clamp_serialize.md R132). -/
  | encodePwm (level : Level)
  /-- `encode_generic(addr, cmd, data)`, op 1 (42_generic_encode_decode.md R150). -/
  | encodeGeneric (addr cmd : Byte) (data : List Byte)
  /-- `checksum(bytes)`, op 2 (40_framer_checksum.md R110). -/
  | checksum (bytes : List Byte)
  /-- `decode(bytes)`, op 3 (42_generic_encode_decode.md R151). -/
  | decode (bytes : List Byte)
  /-- The frame `AA addr 01 L data ck` (30_encoding.md R80, R97); L is the number of data bytes. -/
  | cmdGenericA (addr : Byte) (data : List Byte) (ck : Byte)
  /-- The frame `AA addr 02 L data ck` (30_encoding.md R80, R97). -/
  | cmdGenericB (addr : Byte) (data : List Byte) (ck : Byte)
  /-- The frame `AA 52 02 02 h l c` (30_encoding.md R88, R97). -/
  | setGreenPwm (h l c : Byte)
  deriving DecidableEq, Repr

/-- The request record (10_state.md R23). -/
structure Request where
  op : BitVec 2
  level : Level
  addr : Byte
  cmd : Byte
  IN : List Byte
  deriving DecidableEq, Repr

/-- `CommandKind` (10_state.md R27). The level is the operand of `encode_pwm`, any integer the port can carry, not yet
clamped (90_conflicts.md C1; log 16). -/
inductive CommandKind where
  | setGreenPwm (level : Level)
  | generic (code : Byte)
  deriving DecidableEq, Repr

/-- `CommandRequest`, the application-level request (10_state.md R27). -/
structure CommandRequest where
  address : Byte
  command : CommandKind
  payload : List Byte
  deriving DecidableEq, Repr

/-- What HOST puts before the block, one at a time (10_state.md R26, 60_exceptions.md R197). DESIGN CHOICE, log 1 and log 9. -/
inductive HostInput where
  /-- a request record -/
  | request (r : Request)
  /-- an application-level request, which maps to a request record (42_generic_encode_decode.md R156) -/
  | command (c : CommandRequest)
  /-- one candidate frame cut from the received stream (20_memory.md R57) -/
  | wire (bytes : List Byte)
  /-- the reset of 70_reset_and_hazards.md R210, between transactions (DESIGN CHOICE, log 14) -/
  | reset
  deriving DecidableEq, Repr

end Sys2Proof
end

