-- ==== Sys2Proof/Machine/State.lean ====
section
/-! DEFINITION. The state: what HOST is still to present, the response record (10_state.md R24), and the working registers
of the reference byte-serial realisation (10_state.md R32). CODEC keeps nothing else (10_state.md R21). -/

namespace Sys2Proof.Machine

/-! ## Errors and status -/

/-- `EncodeError` (00_scope.md R14). No error carries a value (60_exceptions.md R183). -/
inductive EncodeError where
  | invalidCommand
  | payloadTooLarge
  deriving DecidableEq, Repr

/-- `DecodeError` (00_scope.md R14). -/
inductive DecodeError where
  | tooShort
  | badHeader
  | lengthMismatch
  | checksumMismatch
  deriving DecidableEq, Repr

/-- The errors the block can return (60_exceptions.md R180): six, from the two sets. -/
inductive CodecError where
  | encode (e : EncodeError)
  | decode (e : DecodeError)
  deriving DecidableEq, Repr

/-- The values of the `status` field (10_state.md R25, 30_encoding.md R94). `ioError` is reserved for the transport's
result and never produced by the block (60_exceptions.md R189). -/
inductive Status where
  | ok
  | invalidCommand
  | payloadTooLarge
  | tooShort
  | badHeader
  | lengthMismatch
  | checksumMismatch
  | ioError
  deriving DecidableEq, Repr

/-- `Result<T, E>` of the source: a success with a value or a failure with one error (00_scope.md R14). -/
inductive Result (α ε : Type) where
  | success (v : α)
  | failure (e : ε)
  deriving DecidableEq, Repr

/-! ## Packet and response -/

/-- `Packet`, the wire artifact (10_state.md R28). Its invariant is `Packet.wf` in Machine/Checksum.lean. -/
structure Packet where
  header : Byte
  address : Byte
  command : Byte
  length : Byte
  data : List Byte
  checksum : Byte
  deriving DecidableEq, Repr

/-- The response record as the sum type that 10_state.md R24 asks for: a field that is not valid has no value. -/
inductive Response where
  /-- ENCODE_PWM and ENCODE_GENERIC: `OUT`, or an error -/
  | bytes (r : Result (List Byte) EncodeError)
  /-- CHECKSUM: `ck` -/
  | byte (ck : Byte)
  /-- DECODE: `pkt`, or an error -/
  | packet (r : Result Packet DecodeError)
  deriving DecidableEq, Repr

/-! ## Working registers -/

/-- Bytes by offset in one canonical form: offsets strictly rising, no entry equal to what an unlisted offset reads as
(`Memory.wf` in Machine/Ops.lean). It holds BUF. -/
abbrev Memory := List Host.Cell

/-- What an unlisted offset reads as. BUF is "unspecified" at reset (10_state.md R33): DESIGN CHOICE 0x00, log 13. -/
def Memory.unlisted : Byte := 0x00

/-- The working registers (10_state.md R32) and the two latches of 40_framer_checksum.md R117. -/
structure WorkRegs where
  /-- `ACC`, running XOR of the bytes passed so far. -/
  acc : Byte
  /-- `IDX`, number of bytes passed so far, holds at 261. -/
  idx : BitVec 9
  /-- `LENR`, the byte at offset 3. -/
  lenr : Byte
  /-- `HDR_OK`, whether the byte at offset 0 was 0xAA. -/
  hdrOk : Bool
  /-- The latch of `IN[1]`. -/
  adr : Byte
  /-- The latch of `IN[2]`. -/
  cmdr : Byte
  /-- `BUF`, the bytes at offsets 4 to 259 of the input, at BUF offsets 0 to 255. -/
  buf : Memory
  deriving DecidableEq, Repr

/-- The reset values (10_state.md R33, 70_reset_and_hazards.md R210); BUF and the latches: DESIGN CHOICE, log 13. -/
def WorkRegs.reset : WorkRegs where
  acc := 0x00
  idx := 0
  lenr := 0x00
  hdrOk := false
  adr := 0x00
  cmdr := 0x00
  buf := []

/-! ## The state -/

/-- The state of the machine. -/
structure State where
  /-- What HOST is still to present, oldest first: the environment, not the block (10_state.md R26; log 1). -/
  presented : List HostInput
  /-- The response record of the last completed transaction; none before the first (10_state.md R33; log 3). -/
  response : Option Response
  /-- The working registers (10_state.md R32; log 11). -/
  work : WorkRegs
  deriving DecidableEq, Repr

/-- The machine right after reset: no response is pending, the working registers are at their reset values
(70_reset_and_hazards.md R210), and HOST has presented nothing. -/
def State.reset : State where
  presented := []
  response := none
  work := WorkRegs.reset

/-- Why the machine stops with a fault. The spec's six errors are results, not faults (70_reset_and_hazards.md R227). -/
inductive Fault where
  /-- Raised by a meaning whose MemRead, MemWrite or build_frame is entered outside the domain the spec defines it on
  (20_memory.md R52, R53, 40_framer_checksum.md R111). Safe: the spec gives no effect there. No state reaches it; log 15. -/
  | undefinedAccess
  deriving DecidableEq, Repr

/-- Why an instruction has no meaning. -/
inductive Refusal where
  /-- Raised by an arm of `exec` for an instruction that is not modelled. Safe. No arm raises it. -/
  | notModelled (mnemonic : String)
  deriving DecidableEq, Repr

end Sys2Proof.Machine
end

