-- ==== Sys2Proof/Machine/Flags.lean ====
section
/-! DEFINITION. There are no flags (10_state.md R25): the one status is the `status` field of the response. Its value, its
code (30_encoding.md R94), and which response fields are valid (10_state.md R24). -/

namespace Sys2Proof.Machine

/-- The status that names an encode error (60_exceptions.md R182). -/
def EncodeError.status : EncodeError → Status
  | .invalidCommand => .invalidCommand
  | .payloadTooLarge => .payloadTooLarge

/-- The status that names a decode error (60_exceptions.md R182). -/
def DecodeError.status : DecodeError → Status
  | .tooShort => .tooShort
  | .badHeader => .badHeader
  | .lengthMismatch => .lengthMismatch
  | .checksumMismatch => .checksumMismatch

/-- The `status` field (10_state.md R24, R25). -/
def Response.status : Response → Status
  | .bytes (.success _) => .ok
  | .bytes (.failure e) => e.status
  | .byte _ => .ok
  | .packet (.success _) => .ok
  | .packet (.failure e) => e.status

/-- The 3-bit code of a status (30_encoding.md R94; no rule depends on the numbers, log 20). -/
def Status.code : Status → BitVec 3
  | .ok => 0
  | .invalidCommand => 1
  | .payloadTooLarge => 2
  | .tooShort => 3
  | .badHeader => 4
  | .lengthMismatch => 5
  | .checksumMismatch => 6
  | .ioError => 7

/-- `OUT`: the frame of a successful encode, and empty in every other response (10_state.md R24). -/
def Response.out : Response → List Byte
  | .bytes (.success f) => f
  | .bytes (.failure _) => []
  | .byte _ => []
  | .packet _ => []

/-- `ck`, where it is valid (10_state.md R24). -/
def Response.ck : Response → Option Byte
  | .byte c => some c
  | .bytes _ => none
  | .packet _ => none

/-- `pkt`, where it is valid (10_state.md R24). -/
def Response.pkt : Response → Option Packet
  | .packet (.success p) => some p
  | .packet (.failure _) => none
  | .bytes _ => none
  | .byte _ => none

end Sys2Proof.Machine
end

