-- ==== Sys2Proof/Machine/Ops.lean ====
section
/-! DEFINITION. The named operations: the primitives MemRead and MemWrite on IN and OUT (20_memory.md R52, R53), the bytes
of BUF, and a transaction's beginning, its response, its error (60_exceptions.md R186) and reset (70_reset_and_hazards.md R210). -/

namespace Sys2Proof.Machine

/-! ## IN and OUT -/

/-- `MemRead(a, n)`: the bytes of IN at offsets `a` to `a + n - 1`; defined only when `a + n <= IN.length` (20_memory.md R52). -/
def memRead (IN : List Byte) (a n : Nat) : Option (List Byte) :=
  if a + n ≤ IN.length then some ((IN.drop a).take n) else none

/-- `MemRead(a, 1)` as the byte it reads (20_memory.md R52). -/
def memReadByte (IN : List Byte) (a : Nat) : Option Byte := IN[a]?

/-- `MemWrite(a, n, v)`: the bytes `v` go to offsets `a` to `a + n - 1` of OUT, which grows to hold them
(20_memory.md R53). Beyond the end of OUT the bytes between would be left unwritten, which the spec says never happens:
not defined there (log 15). -/
def memWrite (OUT : List Byte) (a : Nat) (v : List Byte) : Option (List Byte) :=
  if a ≤ OUT.length then some (OUT.take a ++ v ++ OUT.drop (a + v.length)) else none

/-! ## BUF -/

/-- The byte at an offset. -/
def Memory.read : Memory → Nat → Byte
  | [], _ => Memory.unlisted
  | (k, v) :: m, a => if k = a then v else Memory.read m a

/-- Store a byte at an offset, keeping the canonical form. -/
def Memory.write : Memory → Nat → Byte → Memory
  | [], a, b => if b = Memory.unlisted then [] else [(a, b)]
  | (k, v) :: m, a, b =>
    if a < k then (if b = Memory.unlisted then (k, v) :: m else (a, b) :: (k, v) :: m)
    else if a = k then (if b = Memory.unlisted then m else (a, b) :: m)
    else (k, v) :: Memory.write m a b

/-- The canonical form: offsets strictly rising, and no entry equal to what an unlisted offset reads as. -/
abbrev Memory.wf (m : Memory) : Prop :=
  m.Pairwise (fun c d => c.1 < d.1) ∧ ∀ c ∈ m, c.2 ≠ Memory.unlisted

/-- BUF has 256 bytes, offsets 0 to 255 (10_state.md R32). -/
abbrev Memory.inBuf (m : Memory) : Prop := ∀ c ∈ m, c.1 < 256

/-! ## Working registers -/

/-- What every transaction's start does to the working registers (10_state.md R32). BUF and the two latches are not
initialised. -/
def WorkRegs.start (w : WorkRegs) : WorkRegs :=
  { w with acc := 0x00, idx := 0, lenr := 0x00, hdrOk := false }

/-- IDX counts one byte and holds at 261, one more than the longest frame (10_state.md R32, 40_framer_checksum.md R117). -/
def countByte (idx : BitVec 9) : BitVec 9 :=
  BitVec.ofNat 9 (min (idx.toNat + 1) (config.maxFrameLen + 1))

/-- A byte passes: ACC takes it in and IDX counts it (40_framer_checksum.md R116, R117). -/
def WorkRegs.pass (w : WorkRegs) (b : Byte) : WorkRegs :=
  { w with acc := w.acc ^^^ b, idx := countByte w.idx }

/-! ## A transaction -/

/-- A transaction begins: the working registers are initialised (10_state.md R32) and there is no response until it
completes (20_memory.md R59; log 3). -/
def State.beginTransaction (s : State) : State :=
  { s with response := none, work := s.work.start }

/-- The working registers after the bytes of the transaction have passed (log 11). -/
def State.setWork (s : State) (w : WorkRegs) : State := { s with work := w }

/-- The transaction ends with a result: the response is there for HOST (70_reset_and_hazards.md R227). -/
def State.respond (s : State) (r : Response) : State := { s with response := some r }

/-- The response that carries an error, and nothing else (10_state.md R24). -/
def CodecError.toResponse : CodecError → Response
  | .encode e => .bytes (.failure e)
  | .decode e => .packet (.failure e)

/-- `raise`: the operation ends at the failing test, the status is the error, OUT is empty, ck and pkt have no value; no
state is saved, no mode changes, control goes nowhere (60_exceptions.md R186, 00_scope.md R13). There is no return from
an error: the transaction is complete (60_exceptions.md R187). -/
def State.raise (s : State) (e : CodecError) : State := s.respond e.toResponse

/-- Reset: the working registers take their reset values and no response is pending (70_reset_and_hazards.md R210;
log 14). What HOST is still to present is HOST's. -/
def State.applyReset (s : State) : State := { s with response := none, work := WorkRegs.reset }

end Sys2Proof.Machine
end

