-- ==== Sys2Proof/Machine/Stream.lean ====
section
/-! DEFINITION. The reference byte-serial realisation on the working registers: the streaming framer
(40_framer_checksum.md R116) and deframer (R117). The response of a transaction is the functional rule's, never this
file's (10_state.md R32); that the two agree is stated as obligations. -/

namespace Sys2Proof.Machine

/-- One byte on the framer's output (40_framer_checksum.md R116). -/
structure Emission where
  byte : Byte
  last : Bool
  deriving DecidableEq, Repr

/-- The bytes the framer passes before the Checksum byte, in order (40_framer_checksum.md R116). -/
def frameBody (address command : Byte) (data : List Byte) : List Byte :=
  [config.header, address, command, BitVec.ofNat 8 data.length] ++ data

/-- The framer's loop: one byte is emitted a step, and it passes through ACC and IDX. -/
def framerLoop : List Byte → WorkRegs → List Emission × WorkRegs
  | [], w => ([], w)
  | b :: rest, w =>
    let r := framerLoop rest (w.pass b)
    (⟨b, false⟩ :: r.1, r.2)

/-- The streaming framer: the loop over the body, then ACC as the last byte (40_framer_checksum.md R116). IDX does not
count the last byte. -/
def framer (address command : Byte) (data : List Byte) (w : WorkRegs) : List Emission × WorkRegs :=
  let r := framerLoop (frameBody address command data) w.start
  (r.1 ++ [⟨r.2.acc, true⟩], r.2)

/-- One step of the deframer (40_framer_checksum.md R117). The offset `i` of the pseudocode is read from IDX: the two agree
up to 261 and no test here tells offsets from 260 on apart (log 12). -/
def deframeByte (w : WorkRegs) (b : Byte) : WorkRegs :=
  let i := w.idx.toNat
  let w := w.pass b
  { w with
    hdrOk := if i = 0 then b == config.header else w.hdrOk
    adr := if i = 1 then b else w.adr
    cmdr := if i = 2 then b else w.cmdr
    lenr := if i = 3 then b else w.lenr
    buf := if 4 ≤ i ∧ i ≤ 259 then Memory.write w.buf (i - 4) b else w.buf }

/-- The working registers after the bytes of IN, one a step (40_framer_checksum.md R117). -/
def deframe (IN : List Byte) (w : WorkRegs) : WorkRegs := IN.foldl deframeByte w.start

/-- The tests at the end of the input, and the packet (40_framer_checksum.md R117). -/
def deframeResult (w : WorkRegs) : Result Packet DecodeError :=
  let n := w.idx.toNat
  if n < config.minFrameLen then .failure .tooShort
  else if w.hdrOk = false then .failure .badHeader
  else if n ≠ config.minFrameLen + w.lenr.toNat then .failure .lengthMismatch
  else if w.acc ≠ 0x00 then .failure .checksumMismatch
  else
    .success
      { header := config.header
        address := w.adr
        command := w.cmdr
        length := w.lenr
        data := (List.range w.lenr.toNat).map (Memory.read w.buf)
        checksum := Memory.read w.buf w.lenr.toNat }

/-- The working registers after IN has been folded by CHECKSUM: each byte passes through ACC and IDX (40_framer_checksum.md
R110 with the meaning 10_state.md R32 gives the two registers; DEDUCED, log 12). -/
def foldBytes (IN : List Byte) (w : WorkRegs) : WorkRegs := IN.foldl WorkRegs.pass w.start

end Sys2Proof.Machine
end

