-- ==== Sys2Proof/Machine/Checksum.lean ====
section
/-! DEFINITION. The XOR checksum and the packet framer (40_framer_checksum.md): `checksum`, the helper steps `build_frame`,
`serialize` and `verify_checksum`, the `Packet` invariant, and the meaning of CHECKSUM. -/

namespace Sys2Proof.Machine

/-- `checksum`: the running XOR from 0x00, masked to 8 bits (40_framer_checksum.md R110; the starting value is the
spec's derivation, log 7). -/
def checksum (bytes : List Byte) : Byte :=
  bytes.foldl (fun acc b => acc ^^^ b) 0x00 &&& 0xFF

/-- The invariant of `Packet` (10_state.md R28). It does not restrict address, command or the content of data. -/
abbrev Packet.wf (p : Packet) : Prop :=
  p.header = config.header ∧ p.length.toNat = p.data.length ∧
    p.checksum = Machine.checksum ([p.header, p.address, p.command, p.length] ++ p.data)

/-- `build_frame` (40_framer_checksum.md R111): the body at offset 0 of the empty OUT, then the checksum after it. It is
never entered with more than 255 data bytes and has no result there (log 15). -/
def buildFrame (address command : Byte) (data : List Byte) : Option (List Byte) :=
  if data.length ≤ config.maxDataLen then
    let body := frameBody address command data
    match memWrite [] 0 body with
    | some out => memWrite out (4 + data.length) [checksum body]
    | none => none
  else none

/-- `serialize`: the fields of a packet in the order of the wire table (40_framer_checksum.md R112). -/
def serialize (p : Packet) : List Byte :=
  [p.header, p.address, p.command, p.length] ++ p.data ++ [p.checksum]

/-- `verify_checksum`: the fold of all bytes but the last equals the last (40_framer_checksum.md R113). -/
def verifyChecksum (bytes : List Byte) : Option Bool :=
  match memRead bytes 0 (bytes.length - 1), memReadByte bytes (bytes.length - 1) with
  | some covered, some trailing => some (checksum covered == trailing)
  | _, _ => none

/-- CHECKSUM (40_framer_checksum.md R110): the fold of exactly the bytes given; status OK always. -/
def execChecksum (bytes : List Byte) (s : State) : Host.Outcome State Fault Refusal :=
  let s := s.beginTransaction
  .next ((s.setWork (foldBytes bytes s.work)).respond (.byte (checksum bytes)))

end Sys2Proof.Machine
end

