-- ==== Sys2Proof/Machine/Operands.lean ====
section
/-! DEFINITION. The operand forms: the level port as an integer (00_scope.md R13), the clamp and the big-endian split
(41_pwm_clamp_serialize.md R130, R131). Byte operands are read as they stand (`zext_8`, 30_encoding.md R89, R90). -/

namespace Sys2Proof.Machine

/-- `sext_N`: the integer a two's-complement pattern of any width stands for (00_scope.md R13). The port's is `sext_LEVEL_W`. -/
def sext {n : Nat} (v : BitVec n) : Int := v.toInt

/-- `clamp`: saturate any integer into PWM_MIN to PWM_MAX (41_pwm_clamp_serialize.md R130). The comparisons are of integers,
before any narrowing (90_conflicts.md C1). -/
def clamp (level : Int) : Int :=
  if level < config.pwmMin then config.pwmMin
  else if level > config.pwmMax then config.pwmMax
  else level

/-- The clamped level as the source's `u16`, which it always fits (90_conflicts.md C1). -/
def clampedLevel (level : Int) : U16 := BitVec.ofInt 16 (clamp level)

/-- `split16`: high byte first (41_pwm_clamp_serialize.md R131, 20_memory.md R54). -/
def split16 (c : U16) : List Byte := [c.extractLsb' 8 8, c.extractLsb' 0 8]

end Sys2Proof.Machine
end

