-- ==== Sys2Proof/Machine/Pwm.lean ====
section
/-! DEFINITION. The PWM-level clamper and serializer (41_pwm_clamp_serialize.md): `encode_pwm` over all integers, and the
meaning of ENCODE_PWM. -/

namespace Sys2Proof.Machine

/-- The two data bytes of the PWM frame (41_pwm_clamp_serialize.md R132). -/
def pwmData (level : Int) : List Byte := split16 (clampedLevel level)

/-- `encode_pwm`, over every integer (41_pwm_clamp_serialize.md R132). -/
def encodePwm (level : Int) : Option (List Byte) :=
  buildFrame config.pwmAddress config.pwmCommand (pwmData level)

/-- ENCODE_PWM (41_pwm_clamp_serialize.md R132): the operand is `sext_LEVEL_W` of the port; status OK always. -/
def execEncodePwm (level : Level) (s : State) : Host.Outcome State Fault Refusal :=
  let s := s.beginTransaction
  match encodePwm (sext level) with
  | none => .fault .undefinedAccess
  | some out =>
    let w := (framer config.pwmAddress config.pwmCommand (pwmData (sext level)) s.work).2
    .next ((s.setWork w).respond (.bytes (.success out)))

end Sys2Proof.Machine
end

