-- ==== Sys2Proof/WellFormed.lean ====
section
/-! DEFINITION. Which terms of `Instr` are instructions: those an encoding of the spec exists for. -/

namespace Sys2Proof

/-- The row SET_GREEN_PWM takes the frames to Address 0x52 with Command 0x02 and Length 2 out of CMD_GENERIC_B
(30_encoding.md R97; log 18). -/
def isPwmShape (addr : Byte) (data : List Byte) : Bool :=
  addr == config.pwmAddress && data.length == config.pwmDataLen

/-- A request has every operand value its fields can hold (10_state.md R23). A wire command's data must fit the one-byte
Length (30_encoding.md R85), and each frame has one name. -/
def Instr.wf : Instr → Bool
  | .encodePwm _ => true
  | .encodeGeneric _ _ _ => true
  | .checksum _ => true
  | .decode _ => true
  | .cmdGenericA _ data _ => decide (data.length ≤ config.maxDataLen)
  | .cmdGenericB addr data _ => decide (data.length ≤ config.maxDataLen) && !isPwmShape addr data
  | .setGreenPwm _ _ _ => true

end Sys2Proof
end

