-- ==== Sys2Proof/Decode.lean ====
section
/-! DEFINITION. From what HOST presents to an instruction: the operation select (30_encoding.md R92), the dispatch of a
`CommandRequest` (42_generic_encode_decode.md R156) and the wire-command rows (30_encoding.md R97). Total; what is no
instruction is rejected by name. Then the encoder, from the same tables, and the opcode table's own bit numbering. -/

namespace Sys2Proof

/-! ## The code points -/

/-- `op` of ENCODE_PWM (30_encoding.md R92; log 20 for the four numbers). -/
def opEncodePwm : BitVec 2 := 0b00
/-- `op` of ENCODE_GENERIC (30_encoding.md R92). -/
def opEncodeGeneric : BitVec 2 := 0b01
/-- `op` of CHECKSUM (30_encoding.md R92). -/
def opChecksum : BitVec 2 := 0b10
/-- `op` of DECODE (30_encoding.md R92). -/
def opDecode : BitVec 2 := 0b11

/-- Command code "generic-A" (30_encoding.md R84). -/
def codeGenericA : Byte := 0x01
/-- Command code "generic-B / PWM" (30_encoding.md R84). -/
def codeGenericB : Byte := 0x02

/-! ## Decoding -/

/-- Why a presentation is no instruction of the table. None of these stops the machine: wire bytes that are no wire
command are still a candidate frame (log 10). -/
inductive Reject where
  /-- fewer than four bytes: there is no word W (30_encoding.md R97) -/
  | noWord
  /-- the first byte is not 0xAA: "not a frame" (30_encoding.md R97) -/
  | notAFrame
  /-- a Command the encoder never emits (30_encoding.md R91, R97) -/
  | commandNotListed
  /-- the number of bytes is not 5 + L (30_encoding.md R81) -/
  | wrongLength
  /-- reset is an input of the block and no instruction -/
  | resetInput
  deriving DecidableEq, Repr

/-- The operation a request record selects, with the operands it reads; the other fields have no effect
(10_state.md R23, 30_encoding.md R92). All four codes are used. -/
def decodeRequest (r : Request) : Instr :=
  if r.op = opEncodePwm then .encodePwm r.level
  else if r.op = opEncodeGeneric then .encodeGeneric r.addr r.cmd r.IN
  else if r.op = opChecksum then .checksum r.IN
  else .decode r.IN

/-- The request record a `CommandRequest` becomes; operands the operation does not read are 0 and empty
(42_generic_encode_decode.md R156, 30_encoding.md R95). For `SetGreenPwm` the address and payload are not used (decision D13, log 16). -/
def CommandRequest.toRequest (c : CommandRequest) : Request :=
  match c.command with
  | .setGreenPwm level => { op := opEncodePwm, level := level, addr := 0, cmd := 0, IN := [] }
  | .generic code => { op := opEncodeGeneric, level := 0, addr := c.address, cmd := code, IN := c.payload }

/-- The Data and Checksum bytes of a frame with Length byte `len`: exactly `len` bytes and one more (30_encoding.md R80). -/
def splitTail (len : Byte) (rest : List Byte) : Option (List Byte × Byte) :=
  if rest.length = len.toNat + 1 then
    match rest.getLast? with
    | some ck => some (rest.dropLast, ck)
    | none => none
  else none

/-- The wire command of a frame's bytes. The rows match Header, Command and, for SET_GREEN_PWM, Address and Length
(30_encoding.md R97); that row is tried before CMD_GENERIC_B, which it is a sub-case of (log 18). -/
def decodeWire (bytes : List Byte) : Except Reject Instr :=
  match bytes with
  | header :: addr :: cmd :: len :: rest =>
    if header ≠ config.header then .error .notAFrame
    else if cmd ≠ codeGenericA ∧ cmd ≠ codeGenericB then .error .commandNotListed
    else
      match splitTail len rest with
      | none => .error .wrongLength
      | some (data, ck) =>
        if cmd = codeGenericA then .ok (.cmdGenericA addr data ck)
        else
          match data with
          | [h, l] => if addr = config.pwmAddress then .ok (.setGreenPwm h l ck) else .ok (.cmdGenericB addr [h, l] ck)
          | _ => .ok (.cmdGenericB addr data ck)
  | _ => .error .noWord

/-- The decoder: total on everything HOST can present. -/
def decode (h : HostInput) : Except Reject Instr :=
  match h with
  | .request r => .ok (decodeRequest r)
  | .command c => .ok (decodeRequest c.toRequest)
  | .wire bytes => decodeWire bytes
  | .reset => .error .resetInput

/-! ## Encoding -/

/-- The bytes of a frame in ascending offset (30_encoding.md R80): Header, Address, Command, Length, Data, Checksum. The
checksum byte is the one given: a frame on the wire may carry a wrong one. -/
def wireBytes (addr cmd : Byte) (data : List Byte) (ck : Byte) : List Byte :=
  [config.header, addr, cmd, BitVec.ofNat 8 data.length] ++ data ++ [ck]

/-- The words of an instruction: the request record with unread operands 0 and empty (30_encoding.md R92, R95), or the
frame (30_encoding.md R80, R88). -/
def encode : Instr → HostInput
  | .encodePwm level => .request { op := opEncodePwm, level := level, addr := 0, cmd := 0, IN := [] }
  | .encodeGeneric addr cmd data => .request { op := opEncodeGeneric, level := 0, addr := addr, cmd := cmd, IN := data }
  | .checksum bytes => .request { op := opChecksum, level := 0, addr := 0, cmd := 0, IN := bytes }
  | .decode bytes => .request { op := opDecode, level := 0, addr := 0, cmd := 0, IN := bytes }
  | .cmdGenericA addr data ck => .wire (wireBytes addr codeGenericA data ck)
  | .cmdGenericB addr data ck => .wire (wireBytes addr codeGenericB data ck)
  | .setGreenPwm h l c => .wire (wireBytes config.pwmAddress config.pwmCommand [h, l] c)

/-! ## The opcode table's numbering -/

/-- The bytes of a frame whose first word is W = bits 31..0, first byte most significant (30_encoding.md R97), and whose
byte k, from 4 on, is bits 8k+7..8k. The frame has 5 + L bytes, L the low byte of W (30_encoding.md R81). Log 17. -/
def tableWireBytes (w : Nat) : List Byte :=
  [BitVec.ofNat 8 (w >>> 24), BitVec.ofNat 8 (w >>> 16), BitVec.ofNat 8 (w >>> 8), BitVec.ofNat 8 w] ++
    (List.range (w % 256 + 1)).map fun k => BitVec.ofNat 8 (w >>> (8 * (k + 4)))

/-- The input HOST presents for an instruction whose bits are `w` in the table's numbering, the bits from `nbits` on
being zero. A REQ row's bits are `op`, bits 1..0; its operand fields have no bits in the table, so they are zero and
empty. A FRAME row has a word of 32 bits or more. Log 17. -/
def tableInput (nbits w : Nat) : HostInput :=
  if nbits < 32 then
    .request { op := BitVec.ofNat 2 (w % 2 ^ nbits), level := 0, addr := 0, cmd := 0, IN := [] }
  else .wire (tableWireBytes (w % 2 ^ nbits))

/-- The instruction the decoder reads from a table word. -/
def decodeTableWord (nbits w : Nat) : Option Instr :=
  match decode (tableInput nbits w) with
  | .ok i => some i
  | .error _ => none

end Sys2Proof
end

