-- ==== Sys2Proof/Machine/Generic.lean ====
section
/-! DEFINITION. The generic command encoder and decoder (42_generic_encode_decode.md): `encode_generic`, `decode`, and the
meanings of ENCODE_GENERIC and DECODE. -/

namespace Sys2Proof.Machine

/-- `encode_generic` (42_generic_encode_decode.md R150). The command is tested before the length (60_exceptions.md R184;
log 6). -/
def encodeGeneric (address command : Byte) (data : List Byte) : Option (Result (List Byte) EncodeError) :=
  if command ∉ config.genericCommands then some (.failure .invalidCommand)
  else if data.length > config.maxDataLen then some (.failure .payloadTooLarge)
  else
    match buildFrame address command data with
    | some out => some (.success out)
    | none => none

/-- The packet of a candidate frame that has passed the four tests (30_encoding.md R90). -/
def readPacket (IN : List Byte) (len : Nat) : Option Packet :=
  match memReadByte IN 0, memReadByte IN 1, memReadByte IN 2, memReadByte IN 3, memRead IN 4 len, memReadByte IN (4 + len) with
  | some header, some address, some command, some length, some data, some checksum =>
    some { header, address, command, length, data, checksum }
  | _, _, _, _, _, _ => none

/-- `decode` (42_generic_encode_decode.md R151): four tests in this order (60_exceptions.md R185; log 6) and no others (R153),
each read only where an earlier test has made it defined (20_memory.md R52). The length sum is of natural numbers. -/
def decodeFrame (IN : List Byte) : Option (Result Packet DecodeError) :=
  if IN.length < config.minFrameLen then some (.failure .tooShort)
  else
    match memReadByte IN 0 with
    | none => none
    | some header =>
      if header ≠ config.header then some (.failure .badHeader)
      else
        match memReadByte IN 3 with
        | none => none
        | some len =>
          if IN.length ≠ config.minFrameLen + len.toNat then some (.failure .lengthMismatch)
          else
            match verifyChecksum IN with
            | none => none
            | some false => some (.failure .checksumMismatch)
            | some true =>
              match readPacket IN len.toNat with
              | some p => some (.success p)
              | none => none

/-- ENCODE_GENERIC (42_generic_encode_decode.md R150). An error ends the operation before any byte is framed. -/
def execEncodeGeneric (addr cmd : Byte) (data : List Byte) (s : State) : Host.Outcome State Fault Refusal :=
  let s := s.beginTransaction
  match encodeGeneric addr cmd data with
  | none => .fault .undefinedAccess
  | some (.failure e) => .next (s.raise (.encode e))
  | some (.success out) =>
    .next ((s.setWork (framer addr cmd data s.work).2).respond (.bytes (.success out)))

/-- The block takes one candidate frame (42_generic_encode_decode.md R151): every byte passes through the deframer, and the
response is `decode`'s. Shared by DECODE and the wire commands. -/
def State.receive (s : State) (IN : List Byte) : Host.Outcome State Fault Refusal :=
  let s := s.beginTransaction
  let s := s.setWork (deframe IN s.work)
  match decodeFrame IN with
  | none => .fault .undefinedAccess
  | some (.failure e) => .next (s.raise (.decode e))
  | some (.success p) => .next (s.respond (.packet (.success p)))

/-- DECODE (42_generic_encode_decode.md R151). -/
def execDecode (bytes : List Byte) (s : State) : Host.Outcome State Fault Refusal :=
  s.receive bytes

end Sys2Proof.Machine
end

