-- ==== Sys2Proof/Machine/Wire.lean ====
section
/-! DEFINITION. The wire commands (30_encoding.md R84, R97). The block accepts a frame by `decode`, which does not branch on
the Command byte (30_encoding.md R93), so each is the candidate frame its bytes are (DESIGN CHOICE, log 9). What the
command does at the peripheral is outside the block (93_implementation_defined.md U2, log 19). -/

namespace Sys2Proof.Machine

/-- CMD_GENERIC_A: the frame `AA addr 01 L data ck` is received. -/
def execCmdGenericA (addr : Byte) (data : List Byte) (ck : Byte) (s : State) : Host.Outcome State Fault Refusal :=
  s.receive (wireBytes addr codeGenericA data ck)

/-- CMD_GENERIC_B: the frame `AA addr 02 L data ck` is received. -/
def execCmdGenericB (addr : Byte) (data : List Byte) (ck : Byte) (s : State) : Host.Outcome State Fault Refusal :=
  s.receive (wireBytes addr codeGenericB data ck)

/-- SET_GREEN_PWM: the frame `AA 52 02 02 h l c` is received (30_encoding.md R88). `decode` returns a packet and does not
range-check or reassemble the level (42_generic_encode_decode.md R153, 20_memory.md R56). -/
def execSetGreenPwm (h l c : Byte) (s : State) : Host.Outcome State Fault Refusal :=
  s.receive (wireBytes config.pwmAddress config.pwmCommand [h, l] c)

end Sys2Proof.Machine
end

