-- ==== Sys2Proof/Machine/Dispatch.lean ====
section
/-! DEFINITION. One arm per instruction. -/

namespace Sys2Proof.Machine

/-- The meaning of an instruction. -/
def exec (i : Instr) (s : State) : Host.Outcome State Fault Refusal :=
  match i with
  | .encodePwm level => Sys2Proof.Machine.execEncodePwm level s
  | .encodeGeneric addr cmd data => Sys2Proof.Machine.execEncodeGeneric addr cmd data s
  | .checksum bytes => Sys2Proof.Machine.execChecksum bytes s
  | .decode bytes => Sys2Proof.Machine.execDecode bytes s
  | .cmdGenericA addr data ck => Sys2Proof.Machine.execCmdGenericA addr data ck s
  | .cmdGenericB addr data ck => Sys2Proof.Machine.execCmdGenericB addr data ck s
  | .setGreenPwm h l c => Sys2Proof.Machine.execSetGreenPwm h l c s

end Sys2Proof.Machine
end

