-- ==== Sys2Proof/Machine/Present.lean ====
section
/-! DEFINITION. What one presentation does: an instruction runs; wire bytes that are no wire command are still a candidate
frame, and `decode` answers them (60_exceptions.md R197, 42_generic_encode_decode.md R154; log 10); reset resets. -/

namespace Sys2Proof.Machine

/-- The block takes what HOST presents. -/
def take (h : HostInput) (s : State) : Host.Outcome State Fault Refusal :=
  match Sys2Proof.decode h with
  | .ok i => exec i s
  | .error _ =>
    match h with
    | .wire bytes => exec (.decode bytes) s
    | .reset => .next s.applyReset
    | .request r => exec (decodeRequest r) s
    | .command c => exec (decodeRequest c.toRequest) s

end Sys2Proof.Machine
end

