-- ==== Sys2Proof/Machine/Step.lean ====
section
/-! DEFINITION. One step is one transaction (10_state.md R20, 70_reset_and_hazards.md R227): the block takes the oldest of what
HOST presents. With nothing presented nothing happens (log 2). -/

namespace Sys2Proof.Machine

/-- One step of the machine. -/
def step (s : State) : Host.Outcome State Fault Refusal :=
  match s.presented with
  | [] => .next s
  | h :: rest => take h { s with presented := rest }

/-- HOST presents the instruction with table bits `w` next, before what it was going to present (log 1, log 17). -/
def State.withFetchWord (s : State) (nbits w : Nat) : State :=
  { s with presented := tableInput nbits w :: s.presented }

end Sys2Proof.Machine
end

