-- ==== Sys2Proof/Machine/Respond.lean ====
section
/-! DEFINITION. The block as the spec sees it from outside: `respond`, a function from a request to its response and from
nothing else (10_state.md R21). `exec` is not written with it; that `exec` answers with it is stated as an obligation. -/

namespace Sys2Proof.Machine

/-- The response to an instruction (10_state.md R21). For an instruction of the table it is always there. -/
def respond : Instr → Option Response
  | .encodePwm level => (encodePwm (sext level)).map fun f => .bytes (.success f)
  | .encodeGeneric addr cmd data => (encodeGeneric addr cmd data).map .bytes
  | .checksum bytes => some (.byte (checksum bytes))
  | .decode bytes => (decodeFrame bytes).map .packet
  | .cmdGenericA addr data ck => (decodeFrame (wireBytes addr codeGenericA data ck)).map .packet
  | .cmdGenericB addr data ck => (decodeFrame (wireBytes addr codeGenericB data ck)).map .packet
  | .setGreenPwm h l c => (decodeFrame (wireBytes config.pwmAddress config.pwmCommand [h, l] c)).map .packet

/-- The response to what HOST presents. Any wire bytes are a candidate frame (60_exceptions.md R197); a reset leaves no
response pending (70_reset_and_hazards.md R210). -/
def respondTo : HostInput → Option Response
  | .request r => respond (decodeRequest r)
  | .command c => respond (decodeRequest c.toRequest)
  | .wire bytes => respond (.decode bytes)
  | .reset => none

end Sys2Proof.Machine
end

