-- ==== Sys2Proof/Safety.lean ====
section
/-! DEFINITION. What counts as a good state of the machine, in the terms the claims use. -/

namespace Sys2Proof.Machine

/-- What a response may carry: a frame of 5 to 260 bytes that starts with the header, declares its own length and folds to
zero (30_encoding.md R80, R81, 40_framer_checksum.md R115), or a well-formed packet (42_generic_encode_decode.md R152). -/
def Response.wf : Response → Prop
  | .bytes (.success f) =>
    f.head? = some config.header ∧ f.length = config.minFrameLen + (f.getD 3 0).toNat ∧
      f.length ≤ config.maxFrameLen ∧ checksum f = 0
  | .bytes (.failure _) => True
  | .byte _ => True
  | .packet (.success p) => p.wf
  | .packet (.failure _) => True

/-! ## The spec's formulas, written without the machine -/

/-- The XOR of all bytes of a sequence (40_framer_checksum.md R114), from the far end: not `checksum`'s own loop. -/
def xorOf : List Byte → Byte
  | [] => 0x00
  | b :: s => b ^^^ xorOf s

/-- The bytes of a frame with Address `a`, Command `k` and Data `d` (42_generic_encode_decode.md R157). -/
def plainFrame (a k : Byte) (d : List Byte) : List Byte :=
  [0xAA, a, k, BitVec.ofNat 8 d.length] ++ d ++ [0xAA ^^^ a ^^^ k ^^^ BitVec.ofNat 8 d.length ^^^ xorOf d]

/-- The packet of that frame (42_generic_encode_decode.md R158). -/
def plainPacket (a k : Byte) (d : List Byte) : Packet where
  header := 0xAA
  address := a
  command := k
  length := BitVec.ofNat 8 d.length
  data := d
  checksum := 0xAA ^^^ a ^^^ k ^^^ BitVec.ofNat 8 d.length ^^^ xorOf d

/-- The clamp in closed form (41_pwm_clamp_serialize.md R133 (e)). -/
def saturated (v : Int) : Int := max 0 (min v 60000)

/-- `[c div 256, c mod 256]` of the saturated level (30_encoding.md R89). -/
def levelBytes (v : Int) : List Byte := [BitVec.ofInt 8 (saturated v / 256), BitVec.ofInt 8 (saturated v % 256)]

/-- A frame that one of the two encodes produces (42_generic_encode_decode.md R161). -/
def Emitted (f : List Byte) : Prop :=
  (∃ v : Int, encodePwm v = some f) ∨ ∃ a k d, encodeGeneric a k d = some (.success f)

/-- In state `s` the instruction returns the status `x` (60_exceptions.md R181). -/
def Returns (i : Instr) (s : State) (x : Status) : Prop :=
  ∃ t r, exec i s = .next t ∧ t.response = some r ∧ r.status = x

/-! ## States -/

/-- The invariant: BUF is canonical and has only its 256 offsets, IDX does not pass 261 (10_state.md R32), and a response
carries what a response may carry. -/
def State.Inv (s : State) : Prop :=
  Memory.wf s.work.buf ∧ Memory.inBuf s.work.buf ∧ s.work.idx.toNat ≤ config.maxFrameLen + 1 ∧
    ∀ r, s.response = some r → r.wf

/-- A run does not stop: the step from `s` answers a next state (70_reset_and_hazards.md R227). -/
def State.Goes (s : State) : Prop := ∃ t, step s = .next t

end Sys2Proof.Machine
end

