-- ==== Sys2Proof/Certificates/Slice0/Obligations.lean ====
section
/-! DEFINITION. The statements for the provers. Each docstring names the rules it rests on. -/

open Sys2Proof Sys2Proof.Machine

/-! ## Encoding -/

/-- Decoding the words of a well-formed instruction gives it back, with every operand (30_encoding.md R92, R97, R80). -/
def Obligations.DecodeOfEncodeIsIdentity : Prop :=
  ∀ i : Instr, i.wf = true → Sys2Proof.decode (encode i) = .ok i

/-- The other direction, on the wire: bytes that decode are exactly the words of a well-formed instruction (30_encoding.md R80, R97;
the row order is the model's reading, log 18). -/
def Obligations.WireBytesHaveOneReading : Prop :=
  ∀ (bytes : List Byte) (i : Instr), Sys2Proof.decode (.wire bytes) = .ok i → i.wf = true ∧ encode i = .wire bytes

/-- Each `op` code selects its operation and its operands, and none is illegal (30_encoding.md R92; the codes are the
spec's decision D4, log 20). -/
def Obligations.OpCodesSelectTheOperations : Prop :=
  ∀ r : Request,
    (r.op = 0b00 → Sys2Proof.decode (.request r) = .ok (.encodePwm r.level)) ∧
    (r.op = 0b01 → Sys2Proof.decode (.request r) = .ok (.encodeGeneric r.addr r.cmd r.IN)) ∧
    (r.op = 0b10 → Sys2Proof.decode (.request r) = .ok (.checksum r.IN)) ∧
    (r.op = 0b11 → Sys2Proof.decode (.request r) = .ok (.decode r.IN)) ∧
    (r.op = 0b00 ∨ r.op = 0b01 ∨ r.op = 0b10 ∨ r.op = 0b11)

/-- The rows' mask and match over W, the first four bytes, say which wire command a frame of 5 + L bytes is, and a frame
that matches no row is none (30_encoding.md R97; the row SET_GREEN_PWM goes before CMD_GENERIC_B, log 18). -/
def Obligations.WireRowsMatchByMask : Prop :=
  ∀ (b0 b1 b2 b3 : Byte) (d : List Byte) (ck : Byte), d.length = b3.toNat →
    let W : BitVec 32 := b0 ++ b1 ++ b2 ++ b3
    let got := decodeWire (b0 :: b1 :: b2 :: b3 :: (d ++ [ck]))
    (W &&& 0xFF00FF00 = 0xAA000100 → got = .ok (.cmdGenericA b1 d ck)) ∧
    (W &&& 0xFF00FF00 = 0xAA000200 → W &&& 0xFFFFFFFF ≠ 0xAA520202 → got = .ok (.cmdGenericB b1 d ck)) ∧
    (W &&& 0xFFFFFFFF = 0xAA520202 → ∃ h l, d = [h, l] ∧ got = .ok (.setGreenPwm h l ck)) ∧
    (W &&& 0xFF00FF00 ≠ 0xAA000100 → W &&& 0xFF00FF00 ≠ 0xAA000200 → ∃ e, got = .error e)

/-- A few words written out from the table decode to what they stand for (30_encoding.md R92, R97; numbering: log 17). -/
def Obligations.WrittenWordsDecode : Prop :=
  decodeTableWord 8 0b00 = some (.encodePwm 0) ∧
  decodeTableWord 8 0b01 = some (.encodeGeneric 0 0 []) ∧
  decodeTableWord 8 0b10 = some (.checksum []) ∧
  decodeTableWord 8 0b11 = some (.decode []) ∧
  decodeTableWord 32 0xAA100100 = some (.cmdGenericA 0x10 [] 0x00) ∧
  decodeTableWord 32 0xAA7F0202 = some (.cmdGenericB 0x7F [0x00, 0x00] 0x00) ∧
  decodeTableWord 32 0xAA520202 = some (.setGreenPwm 0x00 0x00 0x00) ∧
  Sys2Proof.decode (.wire [0xAA, 0x10, 0x01, 0x04, 0xDE, 0xAD, 0xBE, 0xEF, 0x9D]) =
    .ok (.cmdGenericA 0x10 [0xDE, 0xAD, 0xBE, 0xEF] 0x9D) ∧
  Sys2Proof.decode (.wire [0xAA, 0x52, 0x02, 0x02, 0x75, 0x30, 0xBD]) = .ok (.setGreenPwm 0x75 0x30 0xBD)

/-- A request field that the selected operation does not read has no effect (10_state.md R23; the queue is the model's, log 1). -/
def Obligations.UnreadRequestFieldsHaveNoEffect : Prop :=
  ∀ (s : State) (q r : Request), q.op = r.op →
    ((q.op = 0b00 ∧ q.level = r.level) ∨ (q.op = 0b01 ∧ q.addr = r.addr ∧ q.cmd = r.cmd ∧ q.IN = r.IN) ∨
      ((q.op = 0b10 ∨ q.op = 0b11) ∧ q.IN = r.IN)) →
    step { s with presented := .request q :: s.presented } = step { s with presented := .request r :: s.presented }

/-! ## The step -/

/-- When the oldest presentation decodes, the step is that instruction's meaning, with the presentation taken
(10_state.md R26; the queue is the model's, log 1). -/
def Obligations.StepRunsTheDecodedInstruction : Prop :=
  ∀ (s : State) (h : HostInput) (rest : List HostInput) (i : Instr),
    s.presented = h :: rest → Sys2Proof.decode h = .ok i → step s = exec i { s with presented := rest }

/-- Wire bytes that are no wire command are still a candidate frame, and with nothing presented nothing happens
(60_exceptions.md R197; the model's choices, log 10 and log 2). -/
def Obligations.UnlistedFramesRunAsDecode : Prop :=
  (∀ (s : State) (bytes : List Byte) (rest : List HostInput) (e : Reject),
    s.presented = .wire bytes :: rest → Sys2Proof.decode (.wire bytes) = .error e →
      step s = exec (.decode bytes) { s with presented := rest }) ∧
  ∀ s : State, s.presented = [] → step s = .next s

/-- A `CommandRequest` runs as its operation: SetGreenPwm as ENCODE_PWM of its level, the address and payload unused, and
Generic as ENCODE_GENERIC (42_generic_encode_decode.md R156; decision D13, log 16; the queue is
the model's, log 1). -/
def Obligations.CommandRequestsDispatch : Prop :=
  ∀ (s : State) (rest : List HostInput) (address : Byte) (payload : List Byte),
    (∀ level : Level, s.presented = .command ⟨address, .setGreenPwm level, payload⟩ :: rest →
      step s = exec (.encodePwm level) { s with presented := rest }) ∧
    (∀ code : Byte, s.presented = .command ⟨address, .generic code, payload⟩ :: rest →
      step s = exec (.encodeGeneric address code payload) { s with presented := rest })

/-- The machine never stops of itself: every step answers a next state, and takes the oldest presentation where there is one
(70_reset_and_hazards.md R227, 60_exceptions.md R180, 42_generic_encode_decode.md R154). The queue of presentations, and
that a step with nothing presented answers at all, are the model's choices, log 1 and log 2. -/
def Obligations.EveryStepAnswersNext : Prop :=
  ∀ s : State, ∃ t, step s = .next t ∧ t.presented = s.presented.tail

/-- The invariant is kept by every step: BUF canonical with 256 offsets, IDX at most 261, and a response carries only a
well-formed frame or packet (10_state.md R32, 40_framer_checksum.md R115, 42_generic_encode_decode.md R152). -/
def Obligations.StepKeepsTheInvariant : Prop :=
  ∀ s t : State, s.Inv → step s = .next t → t.Inv

/-- The reset state has the invariant. That BUF lists nothing at reset is the model's choice, log 13. -/
def Obligations.ResetHasTheInvariant : Prop := State.reset.Inv

/-- Reset leaves the working registers the spec gives values for at those values, and no response pending; as the
reset state and as an input between transactions (70_reset_and_hazards.md R210, 10_state.md R33; reset as a presentation is
the model's form, log 1 and log 14). Of BUF and the latches,
whose reset values are the model's choice (log 13), it says nothing. -/
def Obligations.ResetLeavesTheSpecsValues : Prop :=
  (State.reset.response = none ∧ State.reset.work.acc = 0x00 ∧ State.reset.work.idx = 0 ∧
    State.reset.work.lenr = 0x00 ∧ State.reset.work.hdrOk = false) ∧
  ∀ (s : State) (rest : List HostInput), s.presented = .reset :: rest →
    ∃ t, step s = .next t ∧ t.presented = rest ∧ t.response = none ∧ t.work.acc = 0x00 ∧ t.work.idx = 0 ∧
      t.work.lenr = 0x00 ∧ t.work.hdrOk = false

/-- The response, and the registers a transaction initialises, depend on the request alone: two machines in any two states
answer an instruction alike (10_state.md R21, R32). -/
def Obligations.ResponseDependsOnTheRequestAlone : Prop :=
  ∀ (i : Instr) (s u : State), ∃ t v, exec i s = .next t ∧ exec i u = .next v ∧ t.response.isSome = true ∧
    t.response = v.response ∧ t.work.acc = v.work.acc ∧ t.work.idx = v.work.idx ∧ t.work.lenr = v.work.lenr ∧
    t.work.hdrOk = v.work.hdrOk

/-- A run of any length, from any state, answers the last presentation with `respondTo` of that presentation, whatever
ran before it (10_state.md R21, 20_memory.md R64, 60_exceptions.md R187). The queue (log 1), and that wire bytes of every
kind are answered as DECODE answers them (log 9, log 10), are the model's choices. -/
def Obligations.RunsAnswerEachRequestAlone : Prop :=
  ∀ (s : State) (before : List HostInput) (h : HostInput) (rest : List HostInput),
    s.presented = before ++ h :: rest →
      ∃ t, Host.Core.run Sys2Proof.core (before.length + 1) s = .next t ∧ t.presented = rest ∧
        t.response = respondTo h

/-- Repeating a transaction changes nothing: the second run of an instruction leaves the state the first left
(20_memory.md R60). BUF canonical is the model's invariant. -/
def Obligations.RepeatingATransactionChangesNothing : Prop :=
  ∀ (i : Instr) (s t : State), Memory.wf s.work.buf → exec i s = .next t → exec i t = .next t

/-! ## What each operation answers -/

/-- ENCODE_PWM: for every level and state, the 7-byte frame of the saturated level, and the whole next state: nothing but
the response and ACC, IDX, LENR, HDR_OK changes (41_pwm_clamp_serialize.md R132; registers: log 11; LEVEL_W: log 4). -/
def Obligations.EncodePwmResult : Prop :=
  ∀ (level : Level) (s : State) (hi lo : Byte), levelBytes level.toInt = [hi, lo] →
    exec (.encodePwm level) s = .next
      { s with
        response := some (.bytes (.success [0xAA, 0x52, 0x02, 0x02, hi, lo, 0xF8 ^^^ hi ^^^ lo]))
        work := { s.work with acc := 0xF8 ^^^ hi ^^^ lo, idx := 6, lenr := 0x00, hdrOk := false } }

/-- ENCODE_GENERIC: its three outcomes as whole next states (42_generic_encode_decode.md R150; the priority of the two
errors is the spec's decision D10, log 6; registers: log 11). -/
def Obligations.EncodeGenericResult : Prop :=
  ∀ (addr cmd : Byte) (data : List Byte) (s : State),
    (cmd ≠ 0x01 → cmd ≠ 0x02 →
      exec (.encodeGeneric addr cmd data) s = .next
        { s with
          response := some (.bytes (.failure .invalidCommand))
          work := { s.work with acc := 0x00, idx := 0, lenr := 0x00, hdrOk := false } }) ∧
    ((cmd = 0x01 ∨ cmd = 0x02) → 255 < data.length →
      exec (.encodeGeneric addr cmd data) s = .next
        { s with
          response := some (.bytes (.failure .payloadTooLarge))
          work := { s.work with acc := 0x00, idx := 0, lenr := 0x00, hdrOk := false } }) ∧
    ((cmd = 0x01 ∨ cmd = 0x02) → data.length ≤ 255 →
      exec (.encodeGeneric addr cmd data) s = .next
        { s with
          response := some (.bytes (.success (plainFrame addr cmd data)))
          work := { s.work with
            acc := 0xAA ^^^ addr ^^^ cmd ^^^ BitVec.ofNat 8 data.length ^^^ xorOf data
            idx := BitVec.ofNat 9 (4 + data.length)
            lenr := 0x00
            hdrOk := false } })

/-- CHECKSUM: for every byte sequence and state, the XOR of exactly those bytes, and the whole next state
(40_framer_checksum.md R110; what ACC and IDX hold after it is the model's reading, log 12). -/
def Obligations.ChecksumResult : Prop :=
  ∀ (bytes : List Byte) (s : State),
    exec (.checksum bytes) s = .next
      { s with
        response := some (.byte (xorOf bytes))
        work := { s.work with
          acc := xorOf bytes
          idx := BitVec.ofNat 9 (min bytes.length 261)
          lenr := 0x00
          hdrOk := false } }

/-- DECODE: for every byte sequence and state, the first failing test's error in the order given, or the packet
(42_generic_encode_decode.md R151, 30_encoding.md R90; `TooShort` over `BadHeader`, and no test
but these four, are the spec's decisions D11 and D12, log 6). -/
def Obligations.DecodeResult : Prop :=
  ∀ (bytes : List Byte) (s : State), ∃ t, exec (.decode bytes) s = .next t ∧ t.presented = s.presented ∧
    t.response = some (.packet
      (if bytes.length < 5 then .failure .tooShort
       else if bytes.getD 0 0 ≠ 0xAA then .failure .badHeader
       else if bytes.length ≠ 5 + (bytes.getD 3 0).toNat then .failure .lengthMismatch
       else if xorOf bytes.dropLast ≠ bytes.getLastD 0 then .failure .checksumMismatch
       else .success
        { header := 0xAA
          address := bytes.getD 1 0
          command := bytes.getD 2 0
          length := bytes.getD 3 0
          data := (bytes.drop 4).dropLast
          checksum := bytes.getLastD 0 }))

/-- CMD_GENERIC_A and CMD_GENERIC_B: the frame is received; the packet if its checksum byte is right, else
ChecksumMismatch (42_generic_encode_decode.md R151, 30_encoding.md R97; acceptance is the model's choice, log 9). -/
def Obligations.GenericWireCommandResult : Prop :=
  ∀ (a : Byte) (d : List Byte) (ck : Byte) (s : State), d.length ≤ 255 →
    (∃ t, exec (.cmdGenericA a d ck) s = .next t ∧ t.presented = s.presented ∧
      t.response = some (.packet
        (if ck = 0xAA ^^^ a ^^^ 0x01 ^^^ BitVec.ofNat 8 d.length ^^^ xorOf d then .success (plainPacket a 0x01 d)
         else .failure .checksumMismatch))) ∧
    (∃ t, exec (.cmdGenericB a d ck) s = .next t ∧ t.presented = s.presented ∧
      t.response = some (.packet
        (if ck = 0xAA ^^^ a ^^^ 0x02 ^^^ BitVec.ofNat 8 d.length ^^^ xorOf d then .success (plainPacket a 0x02 d)
         else .failure .checksumMismatch)))

/-- SET_GREEN_PWM: the 7-byte frame is received; any level bytes are accepted, the checksum is 0xF8 xor h xor l
(30_encoding.md R88, 42_generic_encode_decode.md R151, R153; acceptance is the model's choice, log 9, and that the level
is not tested is the spec's decision D12, log 6). -/
def Obligations.SetGreenPwmResult : Prop :=
  ∀ (h l c : Byte) (s : State), ∃ t, exec (.setGreenPwm h l c) s = .next t ∧ t.presented = s.presented ∧
    t.response = some (.packet
      (if c = 0xF8 ^^^ h ^^^ l then
        .success { header := 0xAA, address := 0x52, command := 0x02, length := 0x02, data := [h, l], checksum := c }
       else .failure .checksumMismatch))

/-- Receiving a frame, by DECODE or as a wire command, and every working register after it: ACC folds all bytes, IDX counts
them up to 261, the latches and BUF take the bytes at their offsets, every other byte of BUF reads as before
(40_framer_checksum.md R117, 10_state.md R32). That a wire command run as an instruction passes the deframer is the model's
choice, log 9, and so is what the registers hold after the transaction, log 11. BUF canonical is the model's invariant. -/
def Obligations.ReceivingLatchesTheFrame : Prop :=
  ∀ (i : Instr) (bytes : List Byte) (s : State), Memory.wf s.work.buf →
    (i = .decode bytes ∨ (i.wf = true ∧ encode i = .wire bytes)) →
      ∃ t, exec i s = .next t ∧ t.presented = s.presented ∧
        t.work.acc = xorOf bytes ∧ t.work.idx.toNat = min bytes.length 261 ∧
        t.work.hdrOk = (bytes.head? == some 0xAA) ∧ t.work.adr = bytes.getD 1 s.work.adr ∧
        t.work.cmdr = bytes.getD 2 s.work.cmdr ∧ t.work.lenr = bytes.getD 3 0x00 ∧
        ∀ a, Memory.read t.work.buf a =
          if a < 256 ∧ a + 4 < bytes.length then bytes.getD (a + 4) 0x00 else Memory.read s.work.buf a

/-- Which operation can return which status: from every state each operation returns only its statuses, and returns
each of them on some operands (60_exceptions.md R181). -/
def Obligations.StatusesOfEachOperation : Prop :=
  ∀ s : State,
    (∀ level x, Returns (.encodePwm level) s x ↔ x = .ok) ∧
    (∀ x, (∃ a k d, Returns (.encodeGeneric a k d) s x) ↔ x = .ok ∨ x = .invalidCommand ∨ x = .payloadTooLarge) ∧
    (∀ bytes x, Returns (.checksum bytes) s x ↔ x = .ok) ∧
    (∀ x, (∃ bytes, Returns (.decode bytes) s x) ↔
      x = .ok ∨ x = .tooShort ∨ x = .badHeader ∨ x = .lengthMismatch ∨ x = .checksumMismatch)

/-- An error delivers its status and nothing else: OUT is empty, ck and pkt have no value, and what HOST presents next is
untouched (60_exceptions.md R186, 10_state.md R24). IoError is never produced (R189). -/
def Obligations.ErrorsDeliverNothingElse : Prop :=
  ∀ (i : Instr) (s t : State) (r : Response), exec i s = .next t → t.response = some r →
    t.presented = s.presented ∧ r.status ≠ .ioError ∧
      (r.status ≠ .ok → r.out = [] ∧ r.ck = none ∧ r.pkt = none)

/-- The status codes are the table's and tell the statuses apart (30_encoding.md R94; the numbers are the spec's decision D6,
log 20). -/
def Obligations.StatusCodesAreTheTables : Prop :=
  [Status.ok, .invalidCommand, .payloadTooLarge, .tooShort, .badHeader, .lengthMismatch, .checksumMismatch,
    .ioError].map (fun x => x.code.toNat) = [0, 1, 2, 3, 4, 5, 6, 7] ∧
  ∀ x y : Status, x.code = y.code → x = y

/-! ## The PWM level -/

/-- `clamp` on every integer: saturation at both ends, identity between them (41_pwm_clamp_serialize.md R130). -/
def Obligations.ClampSaturates : Prop :=
  ∀ v : Int, (v < 0 → clamp v = 0) ∧ (60000 < v → clamp v = 60000) ∧ (0 ≤ v → v ≤ 60000 → clamp v = v)

/-- The laws of `clamp`: range, identity, idempotence, monotonicity, closed form (41_pwm_clamp_serialize.md R133); and the two
ends of a level port of any admitted width (00_scope.md R9; the port is the spec's decision D8, log 4). -/
def Obligations.ClampLaws : Prop :=
  (∀ v w : Int, (0 ≤ clamp v ∧ clamp v ≤ 60000) ∧ (0 ≤ v → v ≤ 60000 → clamp v = v) ∧ clamp (clamp v) = clamp v ∧
    (v ≤ w → clamp v ≤ clamp w) ∧ clamp v = max 0 (min v 60000)) ∧
  ∀ n, 18 ≤ n → clamp (sext (BitVec.intMin n)) = 0 ∧ clamp (sext (BitVec.intMax n)) = 60000

/-- `split16`: the high byte first, the low byte second, nothing lost, and the bytes of a clamped level bounded
(41_pwm_clamp_serialize.md R131). -/
def Obligations.SplitIsBigEndian : Prop :=
  ∀ c : U16, ∃ hi lo : Byte, split16 c = [hi, lo] ∧ hi.toNat = c.toNat / 256 ∧ lo.toNat = c.toNat % 256 ∧
    256 * hi.toNat + lo.toNat = c.toNat ∧
    (c.toNat ≤ 60000 → hi.toNat ≤ 0xEA ∧ (hi.toNat = 0xEA → lo.toNat ≤ 0x60))

/-- The level is big-endian in the frame: `c div 256` at offset 4, `c mod 256` at offset 5, for every integer level
(20_memory.md R54). -/
def Obligations.LevelIsBigEndianInTheFrame : Prop :=
  ∀ v : Int, ∃ f hi lo, encodePwm v = some f ∧ 0 ≤ clamp v ∧ clamp v ≤ 60000 ∧ f[4]? = some hi ∧ f[5]? = some lo ∧
    (hi.toNat : Int) = clamp v / 256 ∧ (lo.toNat : Int) = clamp v % 256

/-- `encode_pwm` is an instance of `encode_generic` that never fails (41_pwm_clamp_serialize.md R134, 30_encoding.md R96). -/
def Obligations.PwmIsAGenericCommand : Prop :=
  ∀ v : Int, ∃ f, encodePwm v = some f ∧ encodeGeneric 0x52 0x02 (split16 (clampedLevel v)) = some (.success f)

/-- The payload law, and what `decode` makes of the frame (41_pwm_clamp_serialize.md R135). -/
def Obligations.PwmPayloadLaw : Prop :=
  ∀ v : Int, ∃ f p, encodePwm v = some f ∧ f.length = 7 ∧ f[3]? = some 2 ∧
    256 * ((f.getD 4 0).toNat : Int) + (f.getD 5 0).toNat = clamp v ∧
    decodeFrame f = some (.success p) ∧ p.address = 0x52 ∧ p.command = 0x02 ∧ p.length = 2 ∧
    p.data = split16 (clampedLevel v)

/-- Saturation: above 60000 and below 0 the frame is the bound's, inside the range levels have different frames, and there
are exactly 60001 frames (41_pwm_clamp_serialize.md R136). -/
def Obligations.PwmSaturationLaw : Prop :=
  (∀ v : Int, 60000 ≤ v → encodePwm v = encodePwm 60000) ∧ (∀ v : Int, v ≤ 0 → encodePwm v = encodePwm 0) ∧
  (∀ v w : Int, 0 ≤ v → v < w → w ≤ 60000 → encodePwm v ≠ encodePwm w) ∧
  ∃ frames : List (List Byte), frames.length = 60001 ∧ frames.Nodup ∧
    ∀ f, f ∈ frames ↔ ∃ v : Int, encodePwm v = some f

/-! ## The checksum and the framer -/

/-- The laws of the XOR fold (40_framer_checksum.md R114 (b) to (g)). -/
def Obligations.ChecksumLaws : Prop :=
  (∀ s t, checksum (s ++ t) = checksum s ^^^ checksum t) ∧
  (∀ s t, List.Perm s t → checksum s = checksum t) ∧
  (∀ s, checksum (s ++ [checksum s]) = 0x00) ∧
  (∀ s t, checksum (s ++ 0x00 :: t) = checksum (s ++ t)) ∧
  (∀ (s : List Byte) (j : Nat), j < 8 →
    (checksum s).getLsbD j = decide (s.countP (fun b => b.getLsbD j) % 2 = 1)) ∧
  (∀ (s : List Byte) (n : Nat) (b : Byte), n < s.length → b ≠ s.getD n 0 → checksum (s.set n b) ≠ checksum s)

/-- `verify_checksum` compares the trailing byte with the fold of the rest, which is the same as the whole folding to zero
(40_framer_checksum.md R113); and every frame that is built folds to zero (R115). -/
def Obligations.VerifyMeansTheWholeFoldsToZero : Prop :=
  (∀ (s : List Byte) (c : Byte), verifyChecksum (s ++ [c]) = some (decide (checksum s = c)) ∧
    (checksum s = c ↔ checksum (s ++ [c]) = 0x00)) ∧
  ∀ f, Emitted f → checksum f = 0x00 ∧ verifyChecksum f = some true

/-- A well-formed packet serializes to the frame `build_frame` makes of its fields (40_framer_checksum.md R112). -/
def Obligations.SerializeIsBuildFrame : Prop :=
  ∀ p : Packet, p.wf → buildFrame p.address p.command p.data = some (serialize p)

/-- The shape of a successful `encode_generic`, and that the fields can be told from the frame
(42_generic_encode_decode.md R157). -/
def Obligations.GenericFrameShape : Prop :=
  (∀ a k d f, encodeGeneric a k d = some (.success f) →
    f = plainFrame a k d ∧ f.length = 5 + d.length ∧ (k = 0x01 ∨ k = 0x02) ∧ d.length ≤ 255) ∧
  (∀ a k d a' k' d' f, encodeGeneric a k d = some (.success f) → encodeGeneric a' k' d' = some (.success f) →
    a = a' ∧ k = k' ∧ d = d')

/-- The Address field, on both encodes and on decode, where every value is accepted (30_encoding.md R83). Acceptance is
stated with the Command bytes the spec lists; for the others see DecodeAcceptsEveryCommand. -/
def Obligations.AddressField : Prop :=
  (∀ v : Int, ∃ f, encodePwm v = some f ∧ f[1]? = some 0x52) ∧
  (∀ a k d f, encodeGeneric a k d = some (.success f) → f[1]? = some a) ∧
  (∀ bytes p, decodeFrame bytes = some (.success p) → bytes[1]? = some p.address) ∧
  ∀ (a k : Byte) (d : List Byte), (k = 0x01 ∨ k = 0x02) → d.length ≤ 255 →
    ∃ p, decodeFrame (plainFrame a k d) = some (.success p) ∧ p.address = a

/-- The Length field: on encode the number of data bytes, held exactly; 2 on `encode_pwm`; on decode an unsigned number
that the input's length must agree with (30_encoding.md R85). -/
def Obligations.LengthField : Prop :=
  (∀ a k d f, encodeGeneric a k d = some (.success f) → d.length ≤ 255 ∧ ∃ L, f[3]? = some L ∧ L.toNat = d.length) ∧
  (∀ v : Int, ∃ f, encodePwm v = some f ∧ f[3]? = some 2) ∧
  (∀ bytes p, decodeFrame bytes = some (.success p) →
    bytes[3]? = some p.length ∧ bytes.length = 5 + p.length.toNat)

/-- The Data field is copied unchanged and in order, both ways, whatever its bytes are (30_encoding.md R86). Acceptance is
stated with the Command bytes the spec lists; for the others see DecodeAcceptsEveryCommand. -/
def Obligations.DataField : Prop :=
  (∀ (a k : Byte) (d : List Byte), k = 0x01 ∨ k = 0x02 → d.length ≤ 255 →
    ∃ f, encodeGeneric a k d = some (.success f) ∧ (f.drop 4).take d.length = d) ∧
  (∀ bytes p, decodeFrame bytes = some (.success p) →
    p.data.length = p.length.toNat ∧ (bytes.drop 4).take p.length.toNat = p.data) ∧
  ∀ (a k : Byte) (d : List Byte), (k = 0x01 ∨ k = 0x02) → d.length ≤ 255 →
    ∃ p, decodeFrame (plainFrame a k d) = some (.success p) ∧ p.data = d

/-- The Checksum field: the last byte, the XOR of every byte before it and not of itself, in every frame that is emitted or
accepted (30_encoding.md R87). -/
def Obligations.ChecksumField : Prop :=
  (∀ f, Emitted f → f.getLast? = some (xorOf f.dropLast)) ∧
  ∀ bytes p, decodeFrame bytes = some (.success p) →
    bytes.getLast? = some p.checksum ∧ p.checksum = xorOf bytes.dropLast

/-! ## Round trips, damage and its limits -/

/-- Round trip: from every two states, the frame that ENCODE_GENERIC answers is answered by DECODE with the original fields
(42_generic_encode_decode.md R158). -/
def Obligations.EncodeThenDecodeRoundTrips : Prop :=
  ∀ (a k : Byte) (d : List Byte) (s u : State), (k = 0x01 ∨ k = 0x02) → d.length ≤ 255 →
    ∃ t v f, exec (.encodeGeneric a k d) s = .next t ∧ t.response = some (.bytes (.success f)) ∧
      exec (.decode f) u = .next v ∧ v.response = some (.packet (.success (plainPacket a k d)))

/-- Reverse round trip: what decodes is well formed and serializes to the same bytes; encoding its fields gives the bytes
back if the command is allowed and InvalidCommand otherwise (42_generic_encode_decode.md R152, R159). -/
def Obligations.DecodeThenEncodeRoundTrips : Prop :=
  ∀ (bytes : List Byte) (p : Packet), decodeFrame bytes = some (.success p) →
    p.wf ∧ serialize p = bytes ∧
    ((p.command = 0x01 ∨ p.command = 0x02) →
      encodeGeneric p.address p.command p.data = some (.success bytes)) ∧
    (p.command ≠ 0x01 → p.command ≠ 0x02 →
      encodeGeneric p.address p.command p.data = some (.failure .invalidCommand))

/-- What the encodes put on the wire are the words of the wire commands (30_encoding.md R84, R88, R97; the row order is
the model's reading, log 18). -/
def Obligations.EncodesEmitTheWireCommands : Prop :=
  (∀ (a : Byte) (d : List Byte) (s : State), d.length ≤ 255 →
    ∃ t f, exec (.encodeGeneric a 0x01 d) s = .next t ∧ t.response = some (.bytes (.success f)) ∧
      Sys2Proof.decode (.wire f) =
        .ok (.cmdGenericA a d (0xAA ^^^ a ^^^ 0x01 ^^^ BitVec.ofNat 8 d.length ^^^ xorOf d))) ∧
  (∀ (a : Byte) (d : List Byte) (s : State), d.length ≤ 255 → ¬(a = 0x52 ∧ d.length = 2) →
    ∃ t f, exec (.encodeGeneric a 0x02 d) s = .next t ∧ t.response = some (.bytes (.success f)) ∧
      Sys2Proof.decode (.wire f) =
        .ok (.cmdGenericB a d (0xAA ^^^ a ^^^ 0x02 ^^^ BitVec.ofNat 8 d.length ^^^ xorOf d))) ∧
  (∀ (h l : Byte) (s : State), ∃ t f, exec (.encodeGeneric 0x52 0x02 [h, l]) s = .next t ∧
    t.response = some (.bytes (.success f)) ∧
      Sys2Proof.decode (.wire f) = .ok (.setGreenPwm h l (0xF8 ^^^ h ^^^ l))) ∧
  (∀ (level : Level) (s : State) (h l : Byte), levelBytes level.toInt = [h, l] →
    ∃ t f, exec (.encodePwm level) s = .next t ∧ t.response = some (.bytes (.success f)) ∧
      Sys2Proof.decode (.wire f) = .ok (.setGreenPwm h l (0xF8 ^^^ h ^^^ l)))

/-- A wrong first byte is BadHeader, whatever the Length byte and the checksum are (42_generic_encode_decode.md R160). -/
def Obligations.WrongHeaderIsBadHeader : Prop :=
  ∀ (b : List Byte) (s : State), 5 ≤ b.length → b[0]? ≠ some 0xAA →
    ∃ t, exec (.decode b) s = .next t ∧ t.response = some (.packet (.failure .badHeader))

/-- Every single-byte change of an emitted frame is rejected, and the offset says with which error
(42_generic_encode_decode.md R161, 90_conflicts.md C2). -/
def Obligations.SingleByteChangesAreRejected : Prop :=
  ∀ (f : List Byte) (n : Nat) (b : Byte), Emitted f → n < f.length → f[n]? ≠ some b →
    decodeFrame (f.set n b) = some (.failure
      (if n = 0 then .badHeader else if n = 3 then .lengthMismatch else .checksumMismatch))

/-- A truncated frame is rejected: TooShort below five bytes, LengthMismatch otherwise; so is a frame with bytes after it
(70_reset_and_hazards.md R211, 42_generic_encode_decode.md R151 (d)). -/
def Obligations.TruncatedOrExtendedFramesAreRejected : Prop :=
  (∀ (f : List Byte) (n : Nat), Emitted f → n < f.length →
    decodeFrame (f.take n) = some (.failure (if n < 5 then .tooShort else .lengthMismatch))) ∧
  ∀ (f extra : List Byte), Emitted f → extra ≠ [] → decodeFrame (f ++ extra) = some (.failure .lengthMismatch)

/-- The damage the checksum does not see: any change at offsets other than 0 and 3 that leaves the XOR of the bytes
alone, a rearrangement among them, is accepted (70_reset_and_hazards.md R217; that a changed command or address is not tested is
the spec's decision D12, log 6). -/
def Obligations.UndetectedDamageIsAccepted : Prop :=
  ∀ (f g : List Byte) (p : Packet), decodeFrame f = some (.success p) → g.length = f.length → g[0]? = f[0]? →
    g[3]? = f[3]? → (xorOf g = xorOf f ∨ List.Perm g f) → ∃ q, decodeFrame g = some (.success q)

/-- Decode accepts more than encode emits: every Command byte, every Address, every level
(42_generic_encode_decode.md R153, 70_reset_and_hazards.md R219, R221). That decode tests neither the command nor the address
nor the level is the spec's decision D12, log 6. -/
def Obligations.DecodeAcceptsEveryCommand : Prop :=
  (∀ (a k : Byte) (d : List Byte), d.length ≤ 255 →
    decodeFrame (plainFrame a k d) = some (.success (plainPacket a k d)) ∧
    (k ≠ 0x01 → k ≠ 0x02 → encodeGeneric a k d = some (.failure .invalidCommand))) ∧
  encodeGeneric 0x52 0x02 [0xFF, 0xFF] = some (.success [0xAA, 0x52, 0x02, 0x02, 0xFF, 0xFF, 0xF8])

/-! ## The byte-serial realisation -/

/-- The streaming framer emits exactly the frame, only its last byte marked last, and after `k` bytes ACC is their checksum
and IDX is `k` (40_framer_checksum.md R116). -/
def Obligations.StreamingFramerBuildsTheFrame : Prop :=
  ∀ (a k : Byte) (d : List Byte) (w : WorkRegs), d.length ≤ 255 →
    buildFrame a k d = some ((framer a k d w).1.map Emission.byte) ∧
    (framer a k d w).1.map Emission.last = List.replicate (4 + d.length) false ++ [true] ∧
    ∀ n, n ≤ 4 + d.length →
      (framerLoop ((frameBody a k d).take n) w.start).2.acc = checksum ((frameBody a k d).take n) ∧
      (framerLoop ((frameBody a k d).take n) w.start).2.idx.toNat = n

/-- The streaming deframer answers as `decode` does, for every input, whatever an earlier transaction left in its registers
(40_framer_checksum.md R117, 10_state.md R32). BUF canonical is the model's invariant. -/
def Obligations.StreamingDeframerIsDecode : Prop :=
  ∀ (bytes : List Byte) (w : WorkRegs), Memory.wf w.buf → decodeFrame bytes = some (deframeResult (deframe bytes w))
end

