-- ==== Sys2Proof/Laws/Config.lean ====
section
/-! SUPPORT. The protocol constants as their literals, so that no later proof unfolds `config`. -/

namespace Sys2Proof

@[simp] theorem config_header : config.header = 0xAA := rfl
@[simp] theorem config_pwmAddress : config.pwmAddress = 0x52 := rfl
@[simp] theorem config_pwmCommand : config.pwmCommand = 0x02 := rfl
@[simp] theorem config_genericCommands : config.genericCommands = [0x01, 0x02] := rfl
@[simp] theorem config_pwmMax : config.pwmMax = 60000 := rfl
@[simp] theorem config_pwmMin : config.pwmMin = 0 := rfl
@[simp] theorem config_pwmDataLen : config.pwmDataLen = 2 := rfl
@[simp] theorem config_maxDataLen : config.maxDataLen = 255 := rfl
@[simp] theorem config_minFrameLen : config.minFrameLen = 5 := rfl
@[simp] theorem config_maxFrameLen : config.maxFrameLen = 260 := rfl

end Sys2Proof
end

