-- ==== Sys2Proof/Laws/State.lean ====
section
/-! SUPPORT. One lemma per field per update of the state and of the working registers, so that no later proof unfolds a
record update. -/

namespace Sys2Proof.Machine

@[simp] theorem reset_presented : State.reset.presented = [] := rfl
@[simp] theorem reset_response : State.reset.response = none := rfl
@[simp] theorem reset_work : State.reset.work = WorkRegs.reset := rfl

@[simp] theorem beginTransaction_presented (s : State) : s.beginTransaction.presented = s.presented := rfl
@[simp] theorem beginTransaction_response (s : State) : s.beginTransaction.response = none := rfl
@[simp] theorem beginTransaction_work (s : State) : s.beginTransaction.work = s.work.start := rfl

@[simp] theorem setWork_presented (s : State) (w : WorkRegs) : (s.setWork w).presented = s.presented := rfl
@[simp] theorem setWork_response (s : State) (w : WorkRegs) : (s.setWork w).response = s.response := rfl
@[simp] theorem setWork_work (s : State) (w : WorkRegs) : (s.setWork w).work = w := rfl

@[simp] theorem respond_presented (s : State) (r : Response) : (s.respond r).presented = s.presented := rfl
@[simp] theorem respond_response (s : State) (r : Response) : (s.respond r).response = some r := rfl
@[simp] theorem respond_work (s : State) (r : Response) : (s.respond r).work = s.work := rfl

@[simp] theorem raise_presented (s : State) (e : CodecError) : (s.raise e).presented = s.presented := rfl
@[simp] theorem raise_response (s : State) (e : CodecError) : (s.raise e).response = some e.toResponse := rfl
@[simp] theorem raise_work (s : State) (e : CodecError) : (s.raise e).work = s.work := rfl

@[simp] theorem applyReset_presented (s : State) : s.applyReset.presented = s.presented := rfl
@[simp] theorem applyReset_response (s : State) : s.applyReset.response = none := rfl
@[simp] theorem applyReset_work (s : State) : s.applyReset.work = WorkRegs.reset := rfl

@[simp] theorem withFetchWord_presented (s : State) (nbits w : Nat) :
    (s.withFetchWord nbits w).presented = tableInput nbits w :: s.presented := rfl
@[simp] theorem withFetchWord_response (s : State) (nbits w : Nat) :
    (s.withFetchWord nbits w).response = s.response := rfl
@[simp] theorem withFetchWord_work (s : State) (nbits w : Nat) : (s.withFetchWord nbits w).work = s.work := rfl

@[simp] theorem start_acc (w : WorkRegs) : w.start.acc = 0 := rfl
@[simp] theorem start_idx (w : WorkRegs) : w.start.idx = 0 := rfl
@[simp] theorem start_lenr (w : WorkRegs) : w.start.lenr = 0 := rfl
@[simp] theorem start_hdrOk (w : WorkRegs) : w.start.hdrOk = false := rfl
@[simp] theorem start_adr (w : WorkRegs) : w.start.adr = w.adr := rfl
@[simp] theorem start_cmdr (w : WorkRegs) : w.start.cmdr = w.cmdr := rfl
@[simp] theorem start_buf (w : WorkRegs) : w.start.buf = w.buf := rfl
@[simp] theorem start_start (w : WorkRegs) : w.start.start = w.start := rfl

@[simp] theorem pass_acc (w : WorkRegs) (b : Byte) : (w.pass b).acc = w.acc ^^^ b := rfl
@[simp] theorem pass_idx (w : WorkRegs) (b : Byte) : (w.pass b).idx = countByte w.idx := rfl
@[simp] theorem pass_lenr (w : WorkRegs) (b : Byte) : (w.pass b).lenr = w.lenr := rfl
@[simp] theorem pass_hdrOk (w : WorkRegs) (b : Byte) : (w.pass b).hdrOk = w.hdrOk := rfl
@[simp] theorem pass_adr (w : WorkRegs) (b : Byte) : (w.pass b).adr = w.adr := rfl
@[simp] theorem pass_cmdr (w : WorkRegs) (b : Byte) : (w.pass b).cmdr = w.cmdr := rfl
@[simp] theorem pass_buf (w : WorkRegs) (b : Byte) : (w.pass b).buf = w.buf := rfl

@[simp] theorem deframeByte_acc (w : WorkRegs) (b : Byte) : (deframeByte w b).acc = w.acc ^^^ b := rfl
@[simp] theorem deframeByte_idx (w : WorkRegs) (b : Byte) : (deframeByte w b).idx = countByte w.idx := rfl
@[simp] theorem deframeByte_lenr (w : WorkRegs) (b : Byte) :
    (deframeByte w b).lenr = if w.idx.toNat = 3 then b else w.lenr := rfl
@[simp] theorem deframeByte_hdrOk (w : WorkRegs) (b : Byte) :
    (deframeByte w b).hdrOk = if w.idx.toNat = 0 then b == config.header else w.hdrOk := rfl
@[simp] theorem deframeByte_adr (w : WorkRegs) (b : Byte) :
    (deframeByte w b).adr = if w.idx.toNat = 1 then b else w.adr := rfl
@[simp] theorem deframeByte_cmdr (w : WorkRegs) (b : Byte) :
    (deframeByte w b).cmdr = if w.idx.toNat = 2 then b else w.cmdr := rfl
@[simp] theorem deframeByte_buf (w : WorkRegs) (b : Byte) :
    (deframeByte w b).buf =
      if 4 ≤ w.idx.toNat ∧ w.idx.toNat ≤ 259 then Memory.write w.buf (w.idx.toNat - 4) b else w.buf := rfl

end Sys2Proof.Machine
end

