-- ==== Sys2Proof/Laws/Checksum.lean ====
section
/-! SUPPORT. What the checksum, the framer and the primitives MemRead and MemWrite answer: one lemma each, which later proofs
cite instead of unfolding. -/

namespace Sys2Proof.Machine

/-! ## The primitives -/

theorem memRead_of_le (IN : List Byte) (a n : Nat) (h : a + n ≤ IN.length) :
    memRead IN a n = some ((IN.drop a).take n) := if_pos h

theorem memReadByte_of_lt (IN : List Byte) (a : Nat) (h : a < IN.length) : memReadByte IN a = some (IN.getD a 0) := by
  simp [memReadByte, h]

/-- A write at the end of OUT appends. -/
theorem memWrite_append (OUT v : List Byte) : memWrite OUT OUT.length v = some (OUT ++ v) := by
  simp [memWrite]

/-! ## The fold -/

theorem checksum_eq_foldl (s : List Byte) : checksum s = s.foldl (fun acc b => acc ^^^ b) 0 := by
  unfold checksum
  generalize s.foldl (fun acc b => acc ^^^ b) 0x00 = x
  show x &&& BitVec.allOnes 8 = x
  exact BitVec.and_allOnes

theorem foldl_xor (s : List Byte) (a : Byte) : s.foldl (fun acc b => acc ^^^ b) a = a ^^^ checksum s := by
  rw [checksum_eq_foldl]
  induction s generalizing a with
  | nil => simp
  | cons b s ih => simp only [List.foldl_cons]; rw [ih, ih (0 ^^^ b)]; simp [BitVec.xor_assoc]

@[simp] theorem checksum_nil : checksum [] = 0 := rfl

theorem checksum_cons (b : Byte) (s : List Byte) : checksum (b :: s) = b ^^^ checksum s := by
  rw [checksum_eq_foldl, List.foldl_cons, foldl_xor]; simp

/-! ## Frames -/

@[simp] theorem frameBody_length (a k : Byte) (d : List Byte) : (frameBody a k d).length = 4 + d.length := by
  simp [frameBody]; omega

/-- `build_frame` on its domain: the body and its checksum (40_framer_checksum.md R111). -/
theorem buildFrame_eq (a k : Byte) (d : List Byte) (h : d.length ≤ 255) :
    buildFrame a k d = some (frameBody a k d ++ [checksum (frameBody a k d)]) := by
  have h0 : memWrite [] 0 (frameBody a k d) = some (frameBody a k d) := memWrite_append [] _
  have h1 := memWrite_append (frameBody a k d) [checksum (frameBody a k d)]
  rw [frameBody_length] at h1
  simp only [buildFrame, h, if_true, h0, h1]

/-- `verify_checksum` on a sequence with a last byte (40_framer_checksum.md R113). -/
theorem verifyChecksum_append (s : List Byte) (c : Byte) : verifyChecksum (s ++ [c]) = some (checksum s == c) := by
  simp [verifyChecksum, memRead, memReadByte]

end Sys2Proof.Machine
end

