-- ==== Sys2Proof/Laws/Decode.lean ====
section
/-! SUPPORT. What cutting a frame's tail into Data and Checksum answers. -/

namespace Sys2Proof

/-- Data bytes followed by one more byte are split there exactly when the Length byte says so (30_encoding.md R80). -/
theorem splitTail_append (len : Byte) (d : List Byte) (c : Byte) :
    splitTail len (d ++ [c]) = if d.length = len.toNat then some (d, c) else none := by
  unfold splitTail
  by_cases h : d.length = len.toNat
  · rw [if_pos (by simp [h]), if_pos h]; simp
  · rw [if_neg (by simpa using h), if_neg h]

/-- What a split answers is the tail. -/
theorem splitTail_some (len : Byte) (rest d : List Byte) (c : Byte) (h : splitTail len rest = some (d, c)) :
    rest = d ++ [c] ∧ d.length = len.toNat := by
  rcases List.eq_nil_or_concat rest with rfl | ⟨d', c', rfl⟩
  · simp [splitTail] at h
  · rw [List.concat_eq_append, splitTail_append] at h
    split_ifs at h with hl
    cases h
    exact ⟨List.concat_eq_append, hl⟩

end Sys2Proof
end

