-- ==== Sys2Proof/Laws/Generic.lean ====
section
/-! SUPPORT. What `encode_generic` and `decode` answer, one equation each. -/

namespace Sys2Proof.Machine

/-- `encode_generic`, its three outcomes (42_generic_encode_decode.md R150). -/
theorem encodeGeneric_eq (a k : Byte) (d : List Byte) :
    encodeGeneric a k d = some
      (if k ≠ 0x01 ∧ k ≠ 0x02 then .failure .invalidCommand
       else if 255 < d.length then .failure .payloadTooLarge
       else .success (frameBody a k d ++ [checksum (frameBody a k d)])) := by
  unfold encodeGeneric
  by_cases hk : k ≠ 0x01 ∧ k ≠ 0x02
  · rw [if_pos (by simpa using hk), if_pos hk]
  · rw [if_neg (by simpa using hk), if_neg hk]
    by_cases hd : 255 < d.length
    · rw [if_pos (by simpa using hd), if_pos hd]
    · rw [if_neg (by simpa using hd), if_neg hd, buildFrame_eq a k d (by omega)]

/-- The packet read from a candidate frame that is long enough (30_encoding.md R90). -/
theorem readPacket_eq (IN : List Byte) (n : Nat) (h : IN.length = 5 + n) :
    readPacket IN n = some
      { header := IN.getD 0 0, address := IN.getD 1 0, command := IN.getD 2 0, length := IN.getD 3 0,
        data := (IN.drop 4).take n, checksum := IN.getD (4 + n) 0 } := by
  simp only [readPacket, memReadByte_of_lt IN 0 (by omega), memReadByte_of_lt IN 1 (by omega),
    memReadByte_of_lt IN 2 (by omega), memReadByte_of_lt IN 3 (by omega), memReadByte_of_lt IN (4 + n) (by omega),
    memRead_of_le IN 4 n (by omega)]

/-- `decode` answers for every input, and this is its answer (42_generic_encode_decode.md R151, R154). -/
theorem decodeFrame_eq (IN : List Byte) :
    decodeFrame IN = some
      (if IN.length < 5 then .failure .tooShort
       else if IN.getD 0 0 ≠ 0xAA then .failure .badHeader
       else if IN.length ≠ 5 + (IN.getD 3 0).toNat then .failure .lengthMismatch
       else if checksum (IN.take (IN.length - 1)) ≠ IN.getD (IN.length - 1) 0 then .failure .checksumMismatch
       else .success
        { header := IN.getD 0 0, address := IN.getD 1 0, command := IN.getD 2 0, length := IN.getD 3 0,
          data := (IN.drop 4).take (IN.getD 3 0).toNat, checksum := IN.getD (4 + (IN.getD 3 0).toNat) 0 }) := by
  unfold decodeFrame
  by_cases h5 : IN.length < 5
  · rw [if_pos (by simpa using h5), if_pos h5]
  rw [if_neg (by simpa using h5), if_neg h5, memReadByte_of_lt IN 0 (by omega), memReadByte_of_lt IN 3 (by omega)]
  dsimp only
  by_cases h0 : IN.getD 0 0 ≠ 0xAA
  · rw [if_pos h0, if_pos h0]
  rw [if_neg h0, if_neg h0]
  by_cases h3 : IN.length ≠ 5 + (IN.getD 3 0).toNat
  · rw [if_pos h3, if_pos h3]
  rw [if_neg h3, if_neg h3]
  simp only [verifyChecksum, memRead_of_le IN 0 (IN.length - 1) (by omega), memReadByte_of_lt IN (IN.length - 1) (by omega),
    List.drop_zero]
  by_cases hc : checksum (IN.take (IN.length - 1)) = IN.getD (IN.length - 1) 0
  · simp only [hc, BEq.rfl, ne_eq, not_true, if_false, readPacket_eq IN _ (not_not.1 h3)]
  · simp only [beq_eq_false_iff_ne.2 hc, ne_eq, hc, not_false_iff, if_true]

end Sys2Proof.Machine
end

