-- ==== Sys2Proof/Laws/Memory.lean ====
section
/-! SUPPORT. The laws of BUF's canonical list: a read after a write, the canonical form is kept, and equal reads mean equal
memories. -/

namespace Sys2Proof.Machine

@[simp] theorem memory_read_nil (a : Nat) : Memory.read [] a = Memory.unlisted := rfl

theorem memory_read_cons (c : Host.Cell) (m : Memory) (a : Nat) :
    Memory.read (c :: m) a = if c.1 = a then c.2 else Memory.read m a := rfl

theorem memory_read_below (m : Memory) (a : Nat) (h : ∀ c ∈ m, a < c.1) : Memory.read m a = Memory.unlisted := by
  induction m with
  | nil => rfl
  | cons c m ih =>
    have hc := h c (by simp)
    rw [Memory.read, if_neg (by omega)]
    exact ih fun d hd => h d (by simp [hd])

theorem memory_wf_nil : Memory.wf [] := ⟨List.Pairwise.nil, by simp⟩

theorem memory_wf_cons (c : Host.Cell) (m : Memory) :
    Memory.wf (c :: m) ↔ (∀ d ∈ m, c.1 < d.1) ∧ c.2 ≠ Memory.unlisted ∧ Memory.wf m := by
  simp only [Memory.wf, List.pairwise_cons, List.mem_cons, forall_eq_or_imp]
  tauto

/-- A write adds no offset but its own. -/
theorem memory_write_mem (m : Memory) (a : Nat) (b : Byte) (c : Host.Cell) (h : c ∈ Memory.write m a b) :
    c ∈ m ∨ c = (a, b) := by
  induction m with
  | nil => simp only [Memory.write] at h; split at h <;> simp_all
  | cons d m ih =>
    simp only [Memory.write] at h
    split_ifs at h <;> simp only [List.mem_cons] at h ⊢ <;> tauto

/-- A write keeps the canonical form. -/
theorem memory_write_wf (m : Memory) (a : Nat) (b : Byte) (h : Memory.wf m) : Memory.wf (Memory.write m a b) := by
  induction m with
  | nil =>
    simp only [Memory.write]
    split_ifs with hb
    · exact memory_wf_nil
    · exact (memory_wf_cons _ _).2 ⟨by simp, hb, memory_wf_nil⟩
  | cons d m ih =>
    obtain ⟨hd, hv, hm⟩ := (memory_wf_cons d m).1 h
    simp only [Memory.write]
    split_ifs with h1 h2 h3 h4
    · exact h
    · refine (memory_wf_cons _ _).2 ⟨?_, h2, h⟩
      intro c hc
      rcases List.mem_cons.1 hc with rfl | hc
      · exact h1
      · exact h1.trans (hd c hc)
    · exact hm
    · exact (memory_wf_cons _ _).2 ⟨fun c hc => h3 ▸ hd c hc, h4, hm⟩
    · refine (memory_wf_cons _ _).2 ⟨?_, hv, ih hm⟩
      intro c hc
      rcases memory_write_mem m a b c hc with hc | rfl
      · exact hd c hc
      · show d.1 < a; omega

/-- A write inside BUF keeps every offset inside BUF. -/
theorem memory_write_inBuf (m : Memory) (a : Nat) (b : Byte) (h : Memory.inBuf m) (ha : a < 256) :
    Memory.inBuf (Memory.write m a b) := by
  intro c hc
  rcases memory_write_mem m a b c hc with hc | rfl
  · exact h c hc
  · exact ha

/-- A write changes the byte at its own offset and no other. -/
theorem memory_read_write (m : Memory) (a k : Nat) (b : Byte) (h : Memory.wf m) :
    Memory.read (Memory.write m a b) k = if k = a then b else Memory.read m k := by
  induction m with
  | nil =>
    simp only [Memory.write]
    split_ifs <;> simp_all [Memory.read, eq_comm]
  | cons d m ih =>
    obtain ⟨hd, hv, hm⟩ := (memory_wf_cons d m).1 h
    have below : ∀ j, j ≤ d.1 → Memory.read m j = Memory.unlisted := fun j hj =>
      memory_read_below m j fun c hc => lt_of_le_of_lt hj (hd c hc)
    simp only [Memory.write]
    split_ifs with h1 h2 hk hk h3 h4 hk hk hk
    · subst hk; rw [memory_read_cons, if_neg (by omega), below _ h1.le, h2]
    · rfl
    · subst hk; rw [memory_read_cons, if_pos rfl]
    · rw [memory_read_cons, if_neg (Ne.symm hk)]
    · subst hk; rw [below _ h3.le, h4]
    · rw [memory_read_cons, if_neg (by omega)]
    · subst hk; rw [memory_read_cons, if_pos rfl]
    · rw [memory_read_cons, memory_read_cons, if_neg (Ne.symm hk), if_neg (by omega)]
    · subst hk; rw [memory_read_cons, if_neg (Ne.symm h3), ih hm, if_pos rfl]
    · rw [memory_read_cons, memory_read_cons, ih hm, if_neg hk]

/-- Canonical memories that read alike are equal. -/
theorem memory_ext (m n : Memory) (hm : Memory.wf m) (hn : Memory.wf n)
    (h : ∀ a, Memory.read m a = Memory.read n a) : m = n := by
  induction m generalizing n with
  | nil =>
    cases n with
    | nil => rfl
    | cons c n =>
      obtain ⟨hc, hv, -⟩ := (memory_wf_cons c n).1 hn
      have := h c.1
      simp [Memory.read] at this
      exact absurd this.symm hv
  | cons c m ih =>
    obtain ⟨hc, hv, hm'⟩ := (memory_wf_cons c m).1 hm
    cases n with
    | nil =>
      have := h c.1
      simp [Memory.read] at this
      exact absurd this hv
    | cons d n =>
      obtain ⟨hd, hw, hn'⟩ := (memory_wf_cons d n).1 hn
      have readBelow : ∀ j ≤ d.1, j ≠ d.1 → Memory.read (d :: n) j = Memory.unlisted := fun j hj hne => by
        rw [Memory.read, if_neg (Ne.symm hne)]
        exact memory_read_below n j fun e he => lt_of_le_of_lt hj (hd e he)
      have readBelow' : ∀ j ≤ c.1, j ≠ c.1 → Memory.read (c :: m) j = Memory.unlisted := fun j hj hne => by
        rw [Memory.read, if_neg (Ne.symm hne)]
        exact memory_read_below m j fun e he => lt_of_le_of_lt hj (hc e he)
      have self : Memory.read (c :: m) c.1 = c.2 := by simp [Memory.read]
      have self' : Memory.read (d :: n) d.1 = d.2 := by simp [Memory.read]
      have key : c.1 = d.1 := by
        rcases lt_trichotomy c.1 d.1 with hlt | heq | hgt
        · exact absurd (self.symm.trans ((h _).trans (readBelow _ hlt.le hlt.ne))) hv
        · exact heq
        · exact absurd (self'.symm.trans ((h _).symm.trans (readBelow' _ hgt.le hgt.ne))) hw
      have val : c.2 = d.2 := by rw [← self, ← self', ← key, h]
      have tail : m = n := ih n hm' hn' fun a => by
        by_cases ha : a = c.1
        · subst ha
          rw [memory_read_below m _ hc, memory_read_below n _ fun e he => key ▸ hd e he]
        · have := h a
          rwa [Memory.read, Memory.read, if_neg (Ne.symm ha), if_neg (key ▸ Ne.symm ha)] at this
      rw [tail, Prod.ext key val]

end Sys2Proof.Machine
end

