-- ==== Sys2Proof/Laws/Stream.lean ====
section
/-! SUPPORT. What the byte-serial realisation leaves in its registers. -/

namespace Sys2Proof.Machine

theorem countByte_toNat (idx : BitVec 9) : (countByte idx).toNat = min (idx.toNat + 1) 261 := by
  simp only [countByte, BitVec.toNat_ofNat]
  omega

/-- IDX after some bytes: their number, held at 261. -/
theorem count_bytes {α : Type} (s : List α) (i : BitVec 9) (h : i.toNat ≤ 261) :
    (s.foldl (fun i _ => countByte i) i).toNat = min (i.toNat + s.length) 261 := by
  induction s generalizing i with
  | nil => simp; omega
  | cons b s ih =>
    have hc := countByte_toNat i
    rw [List.foldl_cons, ih _ (by omega), hc]
    simp only [List.length_cons]; omega

theorem fold_pass (s : List Byte) (w : WorkRegs) :
    s.foldl WorkRegs.pass w =
      { w with acc := w.acc ^^^ checksum s, idx := s.foldl (fun i _ => countByte i) w.idx } := by
  induction s generalizing w with
  | nil => simp
  | cons b s ih => simp [ih, checksum_cons, WorkRegs.pass, BitVec.xor_assoc]

/-- The framer's loop emits its bytes in order, none marked last, and passes them through ACC and IDX. -/
theorem framerLoop_eq (s : List Byte) (w : WorkRegs) :
    framerLoop s w = (s.map fun b => ⟨b, false⟩, s.foldl WorkRegs.pass w) := by
  induction s generalizing w with
  | nil => rfl
  | cons b s ih => simp [framerLoop, ih]

/-- The registers after the framer has run: ACC is the checksum of the body, IDX the number of its bytes. -/
theorem framer_work (a k : Byte) (d : List Byte) (w : WorkRegs) (h : d.length ≤ 255) :
    (framer a k d w).2 =
      { w.start with acc := checksum (frameBody a k d), idx := BitVec.ofNat 9 (4 + d.length) } := by
  have hi : (frameBody a k d).foldl (fun i _ => countByte i) (0 : BitVec 9) = BitVec.ofNat 9 (4 + d.length) := by
    apply BitVec.eq_of_toNat_eq
    rw [count_bytes _ _ (by simp), frameBody_length, BitVec.toNat_ofNat]
    have h0 : (0 : BitVec 9).toNat = 0 := rfl
    omega
  have hx : (0 : Byte) ^^^ checksum (frameBody a k d) = checksum (frameBody a k d) := BitVec.zero_xor
  simp only [framer, framerLoop_eq, fold_pass, start_idx, start_acc, hi, hx]

/-- What the deframer does to its registers over some bytes, ACC and IDX. -/
theorem deframe_acc_idx (s : List Byte) (w : WorkRegs) :
    (s.foldl deframeByte w).acc = w.acc ^^^ checksum s ∧
      (s.foldl deframeByte w).idx = s.foldl (fun i _ => countByte i) w.idx := by
  induction s generalizing w with
  | nil => simp
  | cons b s ih =>
    obtain ⟨h1, h2⟩ := ih (deframeByte w b)
    simp [h1, h2, checksum_cons, BitVec.xor_assoc]

/-- The deframer keeps BUF canonical and inside its 256 offsets. -/
theorem deframe_buf (s : List Byte) (w : WorkRegs) (h : Memory.wf w.buf) :
    Memory.wf (s.foldl deframeByte w).buf ∧ (Memory.inBuf w.buf → Memory.inBuf (s.foldl deframeByte w).buf) := by
  induction s generalizing w with
  | nil => exact ⟨h, id⟩
  | cons b s ih =>
    have hb : Memory.wf (deframeByte w b).buf := by
      rw [deframeByte_buf]; split_ifs
      · exact memory_write_wf _ _ _ h
      · exact h
    refine ⟨(ih _ hb).1, fun hi => (ih _ hb).2 ?_⟩
    rw [deframeByte_buf]; split_ifs
    · exact memory_write_inBuf _ _ _ hi (by omega)
    · exact hi

end Sys2Proof.Machine
end

