-- ==== Sys2Proof/Laws/Exec.lean ====
section
/-! SUPPORT. What each meaning answers, as one equation over the shared operations: what a proof about `exec` cites. -/

namespace Sys2Proof.Machine

@[simp] theorem exec_encodePwm (level : Level) (s : State) : exec (.encodePwm level) s = execEncodePwm level s := rfl
@[simp] theorem exec_encodeGeneric (a k : Byte) (d : List Byte) (s : State) :
    exec (.encodeGeneric a k d) s = execEncodeGeneric a k d s := rfl
@[simp] theorem exec_checksum (bytes : List Byte) (s : State) : exec (.checksum bytes) s = execChecksum bytes s := rfl
@[simp] theorem exec_decode (bytes : List Byte) (s : State) : exec (.decode bytes) s = s.receive bytes := rfl
@[simp] theorem exec_cmdGenericA (a : Byte) (d : List Byte) (c : Byte) (s : State) :
    exec (.cmdGenericA a d c) s = s.receive (wireBytes a codeGenericA d c) := rfl
@[simp] theorem exec_cmdGenericB (a : Byte) (d : List Byte) (c : Byte) (s : State) :
    exec (.cmdGenericB a d c) s = s.receive (wireBytes a codeGenericB d c) := rfl
@[simp] theorem exec_setGreenPwm (h l c : Byte) (s : State) :
    exec (.setGreenPwm h l c) s = s.receive (wireBytes 0x52 0x02 [h, l] c) := rfl

@[simp] theorem pwmData_length (level : Int) : (pwmData level).length = 2 := rfl

theorem encodePwm_eq (level : Int) :
    encodePwm level =
      some (frameBody 0x52 0x02 (pwmData level) ++ [checksum (frameBody 0x52 0x02 (pwmData level))]) :=
  buildFrame_eq 0x52 0x02 (pwmData level) (by simp)

theorem execEncodePwm_eq (level : Level) (s : State) :
    execEncodePwm level s = .next
      ((s.beginTransaction.setWork (framer 0x52 0x02 (pwmData (sext level)) s.work.start).2).respond
        (.bytes (.success (frameBody 0x52 0x02 (pwmData (sext level)) ++
          [checksum (frameBody 0x52 0x02 (pwmData (sext level)))])))) := by
  simp only [execEncodePwm, encodePwm_eq]; rfl

theorem execEncodeGeneric_eq (a k : Byte) (d : List Byte) (s : State) :
    execEncodeGeneric a k d s = .next
      (if k ≠ 0x01 ∧ k ≠ 0x02 then s.beginTransaction.raise (.encode .invalidCommand)
       else if 255 < d.length then s.beginTransaction.raise (.encode .payloadTooLarge)
       else (s.beginTransaction.setWork (framer a k d s.work.start).2).respond
        (.bytes (.success (frameBody a k d ++ [checksum (frameBody a k d)])))) := by
  simp only [execEncodeGeneric, encodeGeneric_eq]
  by_cases hk : k ≠ 0x01 ∧ k ≠ 0x02
  · simp only [if_pos hk]
  · by_cases hd : 255 < d.length
    · simp only [if_neg hk, if_pos hd]
    · simp only [if_neg hk, if_neg hd]; rfl

/-- Receiving a frame always completes: the deframer's registers, and `decode`'s answer. -/
theorem receive_eq (IN : List Byte) (s : State) : ∃ r, decodeFrame IN = some r ∧
    s.receive IN = .next { s with response := some (.packet r), work := deframe IN s.work } := by
  obtain ⟨r, hr⟩ : ∃ r, decodeFrame IN = some r := ⟨_, decodeFrame_eq IN⟩
  refine ⟨r, hr, ?_⟩
  simp only [State.receive, hr]
  cases r <;> rfl

/-- The step takes the oldest presentation; without one nothing happens. -/
theorem step_nil (s : State) (h : s.presented = []) : step s = .next s := by simp [step, h]

theorem step_cons (s : State) (h : HostInput) (rest : List HostInput) (hp : s.presented = h :: rest) :
    step s = take h { s with presented := rest } := by simp [step, hp]

end Sys2Proof.Machine
end

