-- ==== Sys2Proof/Laws/PerInstr.lean ====
section
/-! SUPPORT. Facts stated of every instruction as syntax, one lemma per constructor. Family FrameLength: a wire command's
words are a frame of 5 + L bytes, L its fourth byte and at most 255 data bytes (30_encoding.md R80, R81). -/

namespace Sys2Proof.Laws.FrameLength

/-- The statement of the family. -/
def Statement (i : Instr) : Prop :=
  i.wf = true → ∀ bytes, encode i = .wire bytes →
    bytes.length = 5 + (bytes.getD 3 0).toNat ∧ bytes.length ≤ 260

theorem wireBytes_length (a k : Byte) (d : List Byte) (c : Byte) (h : d.length ≤ 255) :
    (wireBytes a k d c).length = 5 + ((wireBytes a k d c).getD 3 0).toNat ∧ (wireBytes a k d c).length ≤ 260 := by
  have hm : d.length % 256 = d.length := Nat.mod_eq_of_lt (by omega)
  simp [wireBytes, hm]
  omega

theorem encodePwm (level : Level) : Statement (.encodePwm level) := by
  intro _ bytes h; cases h

theorem encodeGeneric (addr cmd : Byte) (data : List Byte) : Statement (.encodeGeneric addr cmd data) := by
  intro _ bytes h; cases h

theorem checksum (bytes : List Byte) : Statement (.checksum bytes) := by
  intro _ b h; cases h

theorem decode (bytes : List Byte) : Statement (.decode bytes) := by
  intro _ b h; cases h

theorem cmdGenericA (addr : Byte) (data : List Byte) (ck : Byte) : Statement (.cmdGenericA addr data ck) := by
  intro hw bytes h
  cases h
  exact wireBytes_length _ _ _ _ (by simpa [Instr.wf] using hw)

theorem cmdGenericB (addr : Byte) (data : List Byte) (ck : Byte) : Statement (.cmdGenericB addr data ck) := by
  intro hw bytes h
  cases h
  simp only [Instr.wf, Bool.and_eq_true] at hw
  exact wireBytes_length _ _ _ _ (by simpa using hw.1)

theorem setGreenPwm (h l c : Byte) : Statement (.setGreenPwm h l c) := by
  intro _ bytes hb
  cases hb
  exact wireBytes_length _ _ _ _ (by simp)

end Sys2Proof.Laws.FrameLength
end

