-- ==== Sys2Proof/Laws/Run.lean ====
section
/-! SUPPORT. Peeling one step off a run of the host's machine. -/

namespace Sys2Proof.Machine

theorem run_zero (s : State) : Host.Core.run Sys2Proof.core 0 s = .next s := rfl

theorem run_succ_of_next (n : Nat) (s u : State) (h : step s = .next u) :
    Host.Core.run Sys2Proof.core (n + 1) s = Host.Core.run Sys2Proof.core n u := by
  have hs : Sys2Proof.core.step s = .next u := h
  simp only [Host.Core.run]
  rw [hs]

end Sys2Proof.Machine
end

