-- ==== Sys2Proof/Tests/Slice0.lean ====
section
/-! SUPPORT. The model's own tests. Expected results are the spec's vectors (95_test_vectors.md, the id is named) or written out
from its encodings by hand. The last part holds a witness for every statement that has hypotheses. -/

namespace Sys2Proof.Tests

open Sys2Proof Sys2Proof.Machine

/-! ## Helpers -/

/-- The response an outcome leaves. -/
def answer : Host.Outcome State Fault Refusal → Option Response
  | .next t => t.response
  | .fault _ => none
  | .refused _ => none

/-- The working registers an outcome leaves. -/
def left : Host.Outcome State Fault Refusal → Option WorkRegs
  | .next t => some t.work
  | .fault _ => none
  | .refused _ => none

/-- What an earlier transaction may have left: no register at its reset value. -/
def dirtyWork : WorkRegs :=
  { acc := 0x5A, idx := 261, lenr := 0x09, hdrOk := true, adr := 0x33, cmdr := 0x44, buf := [(0, 0x11), (3, 0x22), (255, 0x77)] }

/-- A state with one presentation to come. -/
def ready (h : HostInput) : State := { presented := [h], response := some (.byte 0x5A), work := dirtyWork }

/-- The packet of a decode vector. -/
def pkt (h a k l : Byte) (d : List Byte) (c : Byte) : Option Response :=
  some (.packet (.success { header := h, address := a, command := k, length := l, data := d, checksum := c }))

/-- The frame of V-PWM-10. -/
def pwmFrame : List Byte := [0xAA, 0x52, 0x02, 0x02, 0xEA, 0x60, 0x72]

/-- The frame of V-GEN-5. -/
def genFrame : List Byte := [0xAA, 0x10, 0x01, 0x04, 0xDE, 0xAD, 0xBE, 0xEF, 0x9D]

/-! ## Well-formedness: ill-formed terms are refused (30_encoding.md R85, R97) -/

theorem test_wf_refuses_256_data_bytes_A : (Instr.cmdGenericA 0x10 (List.replicate 256 0) 0).wf = false := by decide +kernel
theorem test_wf_refuses_256_data_bytes_B : (Instr.cmdGenericB 0x10 (List.replicate 256 0) 0).wf = false := by decide +kernel
theorem test_wf_refuses_second_name_of_set_green_pwm : (Instr.cmdGenericB 0x52 [0, 0] 0).wf = false := by decide
theorem test_wf_accepts_neighbours :
    (Instr.cmdGenericB 0x52 [0] 0).wf = true ∧ (Instr.cmdGenericB 0x53 [0, 0] 0).wf = true ∧
      (Instr.cmdGenericA 0x52 [0, 0] 0).wf = true ∧ (Instr.cmdGenericA 0x52 (List.replicate 255 0) 0).wf = true := by
  decide +kernel

/-! ## Decoding: words written out from 30_encoding.md R92, R80, R88, R97 -/

/-- op = 0b00, level -1 as the port's 0xFFFFFFFF (95_test_vectors.md 2.3). -/
theorem test_decode_encodePwm : Sys2Proof.decode (.request ⟨0b00, 0xFFFFFFFF, 0x12, 0x34, [0x56]⟩) = .ok (.encodePwm 0xFFFFFFFF) := by
  decide
theorem test_decode_encodeGeneric :
    Sys2Proof.decode (.request ⟨0b01, 0x11170, 0x12, 0x34, [0x56]⟩) = .ok (.encodeGeneric 0x12 0x34 [0x56]) := by decide
theorem test_decode_checksum : Sys2Proof.decode (.request ⟨0b10, 0x11170, 0x12, 0x34, [0x56]⟩) = .ok (.checksum [0x56]) := by decide
theorem test_decode_decode : Sys2Proof.decode (.request ⟨0b11, 0x11170, 0x12, 0x34, [0x56]⟩) = .ok (.decode [0x56]) := by decide
theorem test_decode_cmdGenericA : Sys2Proof.decode (.wire [0xAA, 0x10, 0x01, 0x00, 0xBB]) = .ok (.cmdGenericA 0x10 [] 0xBB) := by decide
theorem test_decode_cmdGenericB : Sys2Proof.decode (.wire [0xAA, 0x10, 0x02, 0x00, 0xB8]) = .ok (.cmdGenericB 0x10 [] 0xB8) := by decide
theorem test_decode_setGreenPwm : Sys2Proof.decode (.wire pwmFrame) = .ok (.setGreenPwm 0xEA 0x60 0x72) := by decide

/-- SetGreenPwm takes the level and not the address or payload; Generic takes all three (42_generic_encode_decode.md R156). -/
theorem test_decode_command :
    Sys2Proof.decode (.command ⟨0x10, .setGreenPwm 30000, [0x01]⟩) = .ok (.encodePwm 30000) ∧
      Sys2Proof.decode (.command ⟨0x10, .generic 0x01, [0xDE]⟩) = .ok (.encodeGeneric 0x10 0x01 [0xDE]) := by decide

/-- Each rejection has its name. -/
theorem test_decode_rejects_by_name :
    Sys2Proof.decode (.wire [0xAA, 0x52, 0x02]) = .error .noWord ∧
      Sys2Proof.decode (.wire [0x2A, 0x10, 0x01, 0x00, 0x3B]) = .error .notAFrame ∧
      Sys2Proof.decode (.wire [0xAA, 0x10, 0x03, 0x00, 0xB9]) = .error .commandNotListed ∧
      Sys2Proof.decode (.wire [0xAA, 0x10, 0x01, 0x00]) = .error .wrongLength ∧
      Sys2Proof.decode (.wire (pwmFrame ++ [0x00])) = .error .wrongLength ∧
      Sys2Proof.decode .reset = .error .resetInput := by decide

/-- Frame bytes from the fifth on are the table's bits 39..32, 47..40, 55..48 (log 17): Length 2, then 0x75, 0x30, 0xBD. -/
theorem test_table_word_with_operand_bytes :
    decodeTableWord 56 0xBD3075AA520202 = some (.setGreenPwm 0x75 0x30 0xBD) ∧
      decodeTableWord 32 0xBB100100 = none ∧ decodeTableWord 40 0xBBAA100100 = some (.cmdGenericA 0x10 [] 0xBB) := by decide

/-- The table's first word of each row runs as the first instruction after reset. -/
theorem test_fetch_word_runs :
    answer (step (State.reset.withFetchWord 8 0b00)) = some (.bytes (.success [0xAA, 0x52, 0x02, 0x02, 0x00, 0x00, 0xF8])) ∧
      answer (step (State.reset.withFetchWord 8 0b01)) = some (.bytes (.failure .invalidCommand)) ∧
      answer (step (State.reset.withFetchWord 8 0b10)) = some (.byte 0x00) ∧
      answer (step (State.reset.withFetchWord 8 0b11)) = some (.packet (.failure .tooShort)) ∧
      answer (step (State.reset.withFetchWord 32 0xAA520202)) = some (.packet (.failure .checksumMismatch)) := by decide

/-! ## ENCODE_PWM -/

/-- V-PWM-8, and the registers after it: ACC as in 95_test_vectors.md 2.1, six bytes passed. -/
theorem test_encodePwm_30000 :
    answer (exec (.encodePwm 30000) (ready .reset)) = some (.bytes (.success [0xAA, 0x52, 0x02, 0x02, 0x75, 0x30, 0xBD])) ∧
      left (exec (.encodePwm 30000) (ready .reset)) =
        some { dirtyWork with acc := 0xBD, idx := 6, lenr := 0, hdrOk := false } := by decide

/-- V-PWM-16, V-PWM-13, V-PWM-15: both ends of the port, and a level that narrowing before the clamp would make 0. -/
theorem test_encodePwm_saturates :
    answer (exec (.encodePwm 0x80000000) (ready .reset)) = some (.bytes (.success [0xAA, 0x52, 0x02, 0x02, 0x00, 0x00, 0xF8])) ∧
      answer (exec (.encodePwm 0x00010000) (ready .reset)) = some (.bytes (.success pwmFrame)) ∧
      answer (exec (.encodePwm 0x7FFFFFFF) (ready .reset)) = some (.bytes (.success pwmFrame)) := by decide

/-! ## ENCODE_GENERIC -/

/-- V-GEN-5 and V-GEN-8: each allowed command. -/
theorem test_encodeGeneric_frames :
    answer (exec (.encodeGeneric 0x10 0x01 [0xDE, 0xAD, 0xBE, 0xEF]) (ready .reset)) = some (.bytes (.success genFrame)) ∧
      answer (exec (.encodeGeneric 0xFF 0x02 [0xFF, 0xFF, 0xFF]) (ready .reset)) =
        some (.bytes (.success [0xAA, 0xFF, 0x02, 0x03, 0xFF, 0xFF, 0xFF, 0xAB])) := by decide

/-- V-GEN-17, V-GEN-15, V-GEN-16: the whole command byte is compared, and the command test comes first. -/
theorem test_encodeGeneric_errors :
    answer (exec (.encodeGeneric 0x10 0x81 []) (ready .reset)) = some (.bytes (.failure .invalidCommand)) ∧
      answer (exec (.encodeGeneric 0x20 0x01 (List.replicate 256 0)) (ready .reset)) = some (.bytes (.failure .payloadTooLarge)) ∧
      answer (exec (.encodeGeneric 0x20 0x03 (List.replicate 256 0)) (ready .reset)) = some (.bytes (.failure .invalidCommand)) := by
  decide +kernel

/-! ## CHECKSUM -/

/-- V-CK-7, V-CK-5, V-CK-1. -/
theorem test_checksum :
    answer (exec (.checksum [0x01, 0x02, 0x04, 0x08, 0x10, 0x20, 0x40, 0x80]) (ready .reset)) = some (.byte 0xFF) ∧
      answer (exec (.checksum [0xAA, 0x52, 0x02, 0x02, 0x00, 0x00]) (ready .reset)) = some (.byte 0xF8) ∧
      answer (exec (.checksum []) (ready .reset)) = some (.byte 0x00) := by decide

/-! ## DECODE -/

/-- V-DEC-3, V-DEC-4, V-DEC-19: any command and any level is accepted. -/
theorem test_decode_packets :
    answer (exec (.decode genFrame) (ready .reset)) = pkt 0xAA 0x10 0x01 0x04 [0xDE, 0xAD, 0xBE, 0xEF] 0x9D ∧
      answer (exec (.decode [0xAA, 0x00, 0x00, 0x00, 0xAA]) (ready .reset)) = pkt 0xAA 0x00 0x00 0x00 [] 0xAA ∧
      answer (exec (.decode [0xAA, 0x52, 0x02, 0x02, 0xFF, 0xFF, 0xF8]) (ready .reset)) =
        pkt 0xAA 0x52 0x02 0x02 [0xFF, 0xFF] 0xF8 := by decide

/-- V-DEC-8, V-DEC-11, V-DEC-13, V-DEC-14, V-DEC-15: each error, and which goes first. -/
theorem test_decode_errors :
    answer (exec (.decode [0x00, 0x00, 0x00, 0x00]) (ready .reset)) = some (.packet (.failure .tooShort)) ∧
      answer (exec (.decode [0x00, 0x00, 0x00, 0x09, 0x00]) (ready .reset)) = some (.packet (.failure .badHeader)) ∧
      answer (exec (.decode [0xAA, 0x52, 0x02, 0x02, 0x00, 0x00, 0xF8, 0x00]) (ready .reset)) = some (.packet (.failure .lengthMismatch)) ∧
      answer (exec (.decode [0xAA, 0x00, 0x00, 0x01, 0xAB]) (ready .reset)) = some (.packet (.failure .lengthMismatch)) ∧
      answer (exec (.decode [0xAA, 0x52, 0x02, 0x02, 0x00, 0x00, 0xF9]) (ready .reset)) = some (.packet (.failure .checksumMismatch)) := by
  decide

/-! ## The wire commands -/

/-- V-DEC-2 and V-DEC-3's frame with a wrong checksum byte. -/
theorem test_cmdGenericA :
    answer (exec (.cmdGenericA 0x10 [] 0xBB) (ready .reset)) = pkt 0xAA 0x10 0x01 0x00 [] 0xBB ∧
      answer (exec (.cmdGenericA 0x10 [0xDE, 0xAD, 0xBE, 0xEF] 0x9C) (ready .reset)) = some (.packet (.failure .checksumMismatch)) := by
  decide

/-- The frame of V-GEN-12, and what it leaves: bytes 4, 5 and 6 go to BUF 0, 1 and 2 (40_framer_checksum.md R117). -/
theorem test_cmdGenericB :
    answer (exec (.cmdGenericB 0x7F [0x55, 0xAA] 0x2A) (ready .reset)) = pkt 0xAA 0x7F 0x02 0x02 [0x55, 0xAA] 0x2A ∧
      left (exec (.cmdGenericB 0x7F [0x55, 0xAA] 0x2A) (ready .reset)) =
        some { acc := 0x00, idx := 7, lenr := 0x02, hdrOk := true, adr := 0x7F, cmdr := 0x02,
               buf := [(0, 0x55), (1, 0xAA), (2, 0x2A), (3, 0x22), (255, 0x77)] } := by decide

/-- V-DEC-1 and V-DEC-15; the running value of 95_test_vectors.md 2.1 ends at 0x01. -/
theorem test_setGreenPwm :
    answer (exec (.setGreenPwm 0x00 0x00 0xF8) (ready .reset)) = pkt 0xAA 0x52 0x02 0x02 [0x00, 0x00] 0xF8 ∧
      answer (exec (.setGreenPwm 0x00 0x00 0xF9) (ready .reset)) = some (.packet (.failure .checksumMismatch)) ∧
      (left (exec (.setGreenPwm 0x00 0x00 0xF9) (ready .reset))).map WorkRegs.acc = some 0x01 := by decide

/-! ## The helper steps -/

/-- V-BF-3 and V-BF-4. -/
theorem test_buildFrame :
    buildFrame 0xAA 0x01 [0xAA] = some [0xAA, 0xAA, 0x01, 0x01, 0xAA, 0xAA] ∧
      buildFrame 0x99 0x77 [0x42] = some [0xAA, 0x99, 0x77, 0x01, 0x42, 0x07] ∧
      buildFrame 0x10 0x01 (List.replicate 256 0) = none := by decide +kernel

/-- V-SER-1, V-VER-1, V-VER-2. -/
theorem test_serialize_and_verify :
    serialize ⟨0xAA, 0x52, 0x02, 0x02, [0x00, 0x00], 0xF8⟩ = [0xAA, 0x52, 0x02, 0x02, 0x00, 0x00, 0xF8] ∧
      verifyChecksum [0xAA, 0x52, 0x02, 0x02, 0x00, 0x00, 0xF8] = some true ∧
      verifyChecksum [0xAA, 0x52, 0x02, 0x02, 0x00, 0x00, 0xF9] = some false := by decide

/-- V-CL-2, V-CL-7, V-CL-10, V-CL-11, V-CL-14. -/
theorem test_clamp_and_split :
    clamp (-1) = 0 ∧ clamp 60000 = 60000 ∧ clamp 60001 = 60000 ∧ pwmData 4660 = [0x12, 0x34] ∧ pwmData 70000 = [0xEA, 0x60] := by
  decide

/-- The accumulator after each byte of a whole frame (95_test_vectors.md 2.1). -/
theorem test_deframe_running_values :
    ((List.range 9).map fun k => (deframe (genFrame.take (k + 1)) dirtyWork).acc) =
      [0xAA, 0xBA, 0xBB, 0xBF, 0x61, 0xCC, 0x72, 0x9D, 0x00] := by decide

/-- The framer marks its last byte and no other (40_framer_checksum.md R116). -/
theorem test_framer_emissions :
    (framer 0x10 0x01 [] dirtyWork).1 = [⟨0xAA, false⟩, ⟨0x10, false⟩, ⟨0x01, false⟩, ⟨0x00, false⟩, ⟨0xBB, true⟩] := by decide

/-- IDX holds at 261 (10_state.md R32). -/
theorem test_idx_holds : countByte 261 = 261 ∧ countByte 260 = 261 := by decide

/-- BUF stays canonical: writing what an unlisted offset reads as takes the entry away. -/
theorem test_buf_write :
    Memory.write [(0, 0x11), (3, 0x22)] 3 0x00 = [(0, 0x11)] ∧ Memory.write [(0, 0x11), (3, 0x22)] 1 0x33 = [(0, 0x11), (1, 0x33), (3, 0x22)] ∧
      Memory.write [(3, 0x22)] 0 0x00 = [(3, 0x22)] := by decide

/-- Reset between transactions (70_reset_and_hazards.md R210). -/
theorem test_reset_input : answer (step (ready .reset)) = none ∧ left (step (ready .reset)) = some WorkRegs.reset := by decide

/-- Wire bytes that are no wire command are answered as a candidate frame (V-DEC-6). -/
theorem test_unlisted_frame :
    answer (step (ready (.wire [0xAA, 0x99, 0x77, 0x01, 0x42, 0x07]))) = pkt 0xAA 0x99 0x77 0x01 [0x42] 0x07 := by decide

/-! ## Witnesses: states and operands that meet each statement's hypotheses -/

theorem test_witness_DecodeOfEncodeIsIdentity :
    (Instr.cmdGenericA 0x10 (List.replicate 255 0xFF) 0).wf = true ∧ (Instr.cmdGenericB 0x52 [] 0).wf = true := by decide +kernel

theorem test_witness_WireBytesHaveOneReading :
    Sys2Proof.decode (.wire genFrame) = .ok (.cmdGenericA 0x10 [0xDE, 0xAD, 0xBE, 0xEF] 0x9D) := by decide

theorem test_witness_OpCodesSelectTheOperations :
    ∀ op : BitVec 2, ∃ r : Request, r.op = op := fun op => ⟨⟨op, 0, 0, 0, []⟩, rfl⟩

/-- One frame for each row and one for none; the empty and the longest Data. -/
theorem test_witness_WireRowsMatchByMask :
    ((0xAA : Byte) ++ (0x52 : Byte) ++ (0x01 : Byte) ++ (0x02 : Byte)) &&& 0xFF00FF00 = (0xAA000100 : BitVec 32) ∧
      ((0xAA : Byte) ++ (0x52 : Byte) ++ (0x02 : Byte) ++ (0x03 : Byte)) &&& 0xFF00FF00 = (0xAA000200 : BitVec 32) ∧
      ((0xAA : Byte) ++ (0x52 : Byte) ++ (0x02 : Byte) ++ (0x03 : Byte)) &&& 0xFFFFFFFF ≠ (0xAA520202 : BitVec 32) ∧
      ((0xAA : Byte) ++ (0x52 : Byte) ++ (0x02 : Byte) ++ (0x02 : Byte)) &&& 0xFFFFFFFF = (0xAA520202 : BitVec 32) ∧
      ((0xAA : Byte) ++ (0x52 : Byte) ++ (0x03 : Byte) ++ (0x00 : Byte)) &&& 0xFF00FF00 ≠ (0xAA000100 : BitVec 32) ∧
      ((0xAA : Byte) ++ (0x52 : Byte) ++ (0x03 : Byte) ++ (0x00 : Byte)) &&& 0xFF00FF00 ≠ (0xAA000200 : BitVec 32) ∧
      ([] : List Byte).length = (0x00 : Byte).toNat ∧ (List.replicate 2 (0 : Byte)).length = (0x02 : Byte).toNat ∧
      (List.replicate 3 (0 : Byte)).length = (0x03 : Byte).toNat ∧
      (List.replicate 255 (0 : Byte)).length = (0xFF : Byte).toNat := by decide +kernel

/-- Two different records for each operation. -/
theorem test_witness_UnreadRequestFieldsHaveNoEffect :
    (∃ q r : Request, q ≠ r ∧ q.op = r.op ∧ q.op = 0b00 ∧ q.level = r.level) ∧
      (∃ q r : Request, q ≠ r ∧ q.op = r.op ∧ q.op = 0b01 ∧ q.addr = r.addr ∧ q.cmd = r.cmd ∧ q.IN = r.IN) ∧
      (∃ q r : Request, q ≠ r ∧ q.op = r.op ∧ q.op = 0b10 ∧ q.IN = r.IN) ∧
      ∃ q r : Request, q ≠ r ∧ q.op = r.op ∧ q.op = 0b11 ∧ q.IN = r.IN :=
  ⟨⟨⟨0, 7, 1, 2, [3]⟩, ⟨0, 7, 4, 5, []⟩, by decide⟩, ⟨⟨1, 7, 1, 2, [3]⟩, ⟨1, 8, 1, 2, [3]⟩, by decide⟩,
    ⟨⟨2, 7, 1, 2, [3]⟩, ⟨2, 8, 4, 5, [3]⟩, by decide⟩, ⟨⟨3, 7, 1, 2, [3]⟩, ⟨3, 8, 4, 5, [3]⟩, by decide⟩⟩

theorem test_witness_StepRunsTheDecodedInstruction :
    (ready (.wire pwmFrame)).presented = .wire pwmFrame :: [] ∧ Sys2Proof.decode (.wire pwmFrame) = .ok (.setGreenPwm 0xEA 0x60 0x72) := by
  decide

theorem test_witness_UnlistedFramesRunAsDecode :
    (ready (.wire [])).presented = .wire [] :: [] ∧ Sys2Proof.decode (.wire []) = .error .noWord ∧ State.reset.presented = [] := by decide

theorem test_witness_CommandRequestsDispatch :
    (ready (.command ⟨0x10, .setGreenPwm 0xFFFFFFFF, []⟩)).presented = .command ⟨0x10, .setGreenPwm 0xFFFFFFFF, []⟩ :: [] ∧
      (ready (.command ⟨0x10, .generic 0x03, [0]⟩)).presented = .command ⟨0x10, .generic 0x03, [0]⟩ :: [] := by decide

/-- BUF as an earlier transaction may have left it is canonical. -/
theorem test_dirty_buf : Memory.wf dirtyWork.buf ∧ Memory.inBuf dirtyWork.buf := by decide

/-- A state with the invariant that steps, IDX at its greatest value and BUF listing its last offset. -/
theorem test_witness_StepKeepsTheInvariant :
    (ready (.wire genFrame)).Inv ∧ ∃ t, step (ready (.wire genFrame)) = .next t := by
  refine ⟨⟨test_dirty_buf.1, test_dirty_buf.2, by decide, ?_⟩, _, rfl⟩
  intro r h
  cases h
  trivial

theorem test_witness_ResetLeavesTheSpecsValues : (ready .reset).presented = .reset :: [] := by decide

theorem test_witness_RunsAnswerEachRequestAlone :
    ({ ready .reset with presented := [.reset, .wire pwmFrame] } : State).presented = [.reset] ++ .wire pwmFrame :: [] ∧
      (ready .reset).presented = [] ++ .reset :: [] := by decide

theorem test_witness_RepeatingATransactionChangesNothing :
    Memory.wf (ready .reset).work.buf ∧ ∃ t, exec (.decode genFrame) (ready .reset) = .next t := ⟨by decide, _, rfl⟩

/-- Both ends of the range and one step beyond each (V-PWM-3, V-PWM-1, V-PWM-10, V-PWM-11). -/
theorem test_witness_EncodePwmResult :
    levelBytes (BitVec.toInt (0xFFFFFFFF : Level)) = [0x00, 0x00] ∧ levelBytes (BitVec.toInt (0 : Level)) = [0x00, 0x00] ∧
      levelBytes (BitVec.toInt (60000 : Level)) = [0xEA, 0x60] ∧ levelBytes (BitVec.toInt (60001 : Level)) = [0xEA, 0x60] := by decide

/-- The three clauses; 255 and 256 data bytes. -/
theorem test_witness_EncodeGenericResult :
    ((0x03 : Byte) ≠ 0x01 ∧ (0x03 : Byte) ≠ 0x02) ∧ 255 < (List.replicate 256 (0 : Byte)).length ∧
      (List.replicate 255 (0 : Byte)).length ≤ 255 := by decide +kernel

/-- Both outcomes of both commands. -/
theorem test_witness_GenericWireCommandResult :
    ([] : List Byte).length ≤ 255 ∧ (List.replicate 255 (0 : Byte)).length ≤ 255 ∧
      (0xBB : Byte) = 0xAA ^^^ 0x10 ^^^ 0x01 ^^^ BitVec.ofNat 8 ([] : List Byte).length ^^^ xorOf [] ∧
      (0xB8 : Byte) = 0xAA ^^^ 0x10 ^^^ 0x02 ^^^ BitVec.ofNat 8 ([] : List Byte).length ^^^ xorOf [] ∧
      (0xBB : Byte) ≠ 0xB8 := by decide +kernel

/-- DECODE meets the hypotheses with any bytes; each wire command with its frame (V-PWM-10, V-GEN-1, V-GEN-2). -/
theorem test_witness_ReceivingLatchesTheFrame :
    Memory.wf (ready .reset).work.buf ∧
      ((Instr.setGreenPwm 0xEA 0x60 0x72).wf = true ∧ encode (.setGreenPwm 0xEA 0x60 0x72) = .wire pwmFrame) ∧
      ((Instr.cmdGenericA 0x10 [] 0xBB).wf = true ∧
        encode (.cmdGenericA 0x10 [] 0xBB) = .wire [0xAA, 0x10, 0x01, 0x00, 0xBB]) ∧
      ((Instr.cmdGenericB 0x10 [] 0xB8).wf = true ∧
        encode (.cmdGenericB 0x10 [] 0xB8) = .wire [0xAA, 0x10, 0x02, 0x00, 0xB8]) := by decide

/-- A next state with an error, and one without. -/
theorem test_witness_ErrorsDeliverNothingElse :
    (∃ t r, exec (.encodeGeneric 0x10 0x03 []) (ready .reset) = .next t ∧ t.response = some r ∧ r.status ≠ .ok) ∧
      ∃ t r, exec (.checksum []) (ready .reset) = .next t ∧ t.response = some r ∧ r.status = .ok :=
  ⟨⟨_, _, rfl, rfl, by decide⟩, ⟨_, _, rfl, rfl, rfl⟩⟩

/-- A value for each clause at its boundary, and the least width. -/
theorem test_witness_ClampSaturates :
    (-1 : Int) < 0 ∧ (60000 : Int) < 60001 ∧ (0 : Int) ≤ 0 ∧ (0 : Int) ≤ 60000 ∧ (60000 : Int) ≤ 60000 ∧ 18 ≤ 18 := by decide

theorem test_witness_ClampLaws : (0 : Int) ≤ 60000 ∧ (60000 : Int) ≤ 60000 ∧ (-1 : Int) ≤ 70000 := by decide

theorem test_witness_SplitIsBigEndian :
    (60000 : U16).toNat ≤ 60000 ∧ (BitVec.ofNat 8 ((60000 : U16).toNat / 256)).toNat = 0xEA := by decide

theorem test_witness_PwmSaturationLaw :
    (60000 : Int) ≤ 60000 ∧ (0 : Int) ≤ 0 ∧ ((0 : Int) ≤ 0 ∧ (0 : Int) < 60000 ∧ (60000 : Int) ≤ 60000) := by decide

/-- V-CK-5 and V-CK-11 are rearrangements; the top bit; the last byte changed. -/
theorem test_witness_ChecksumLaws :
    List.Perm [(0xAA : Byte), 0x52, 0x02, 0x02, 0x00, 0x00] [0x02, 0x52, 0xAA, 0x02, 0x00, 0x00] ∧ 7 < 8 ∧
      6 < pwmFrame.length ∧ (0x73 : Byte) ≠ pwmFrame.getD 6 0 := by decide

/-- V-PWM-10: a frame that an encode emits. -/
theorem emitted_pwmFrame : Emitted pwmFrame := .inl ⟨60000, by decide⟩

/-- V-GEN-5: the other way to be emitted. -/
theorem emitted_genFrame : Emitted genFrame := .inr ⟨0x10, 0x01, [0xDE, 0xAD, 0xBE, 0xEF], by decide⟩

theorem test_witness_VerifyMeansTheWholeFoldsToZero : Emitted pwmFrame ∧ Emitted genFrame := ⟨emitted_pwmFrame, emitted_genFrame⟩

theorem test_witness_SerializeIsBuildFrame : Packet.wf ⟨0xAA, 0x52, 0x02, 0x02, [0x00, 0x00], 0xF8⟩ := by decide

/-- The longest Data: `encode_generic` succeeds on 255 bytes (V-GEN-14), and on none (V-GEN-1). -/
theorem test_witness_GenericFrameShape :
    (∃ f, encodeGeneric 0x20 0x02 (List.replicate 255 0xFF) = some (.success f)) ∧
      encodeGeneric 0x10 0x01 [] = some (.success [0xAA, 0x10, 0x01, 0x00, 0xBB]) := by
  refine ⟨?_, by decide⟩
  rw [encodeGeneric_eq, if_neg (by decide), if_neg (by decide +kernel)]
  exact ⟨_, rfl⟩

/-- The frames that the statements about one field take: an emitted one, an accepted one (V-DEC-3). -/
theorem test_witness_AddressField :
    ((0x01 : Byte) = 0x01 ∨ (0x01 : Byte) = 0x02) ∧ ((0x02 : Byte) = 0x01 ∨ (0x02 : Byte) = 0x02) ∧
      encodeGeneric 0x10 0x01 [0xDE, 0xAD, 0xBE, 0xEF] = some (.success genFrame) ∧
      decodeFrame genFrame = some (.success ⟨0xAA, 0x10, 0x01, 0x04, [0xDE, 0xAD, 0xBE, 0xEF], 0x9D⟩) ∧
      (List.replicate 255 (0 : Byte)).length ≤ 255 := by decide +kernel

theorem test_witness_LengthField :
    encodeGeneric 0x10 0x01 [] = some (.success [0xAA, 0x10, 0x01, 0x00, 0xBB]) ∧
      decodeFrame [0xAA, 0x10, 0x01, 0x00, 0xBB] = some (.success ⟨0xAA, 0x10, 0x01, 0x00, [], 0xBB⟩) := by decide

theorem test_witness_DataField :
    ((0x01 : Byte) = 0x01 ∨ (0x01 : Byte) = 0x02) ∧ ((0x02 : Byte) = 0x01 ∨ (0x02 : Byte) = 0x02) ∧
      (List.replicate 255 (0xAA : Byte)).length ≤ 255 ∧
      decodeFrame pwmFrame = some (.success ⟨0xAA, 0x52, 0x02, 0x02, [0xEA, 0x60], 0x72⟩) := by decide +kernel

theorem test_witness_ChecksumField :
    Emitted pwmFrame ∧ decodeFrame pwmFrame = some (.success ⟨0xAA, 0x52, 0x02, 0x02, [0xEA, 0x60], 0x72⟩) :=
  ⟨emitted_pwmFrame, by decide⟩

theorem test_witness_EncodeThenDecodeRoundTrips :
    ((0x01 : Byte) = 0x01 ∨ (0x01 : Byte) = 0x02) ∧ ((0x02 : Byte) = 0x01 ∨ (0x02 : Byte) = 0x02) ∧
      (List.replicate 255 (0xAA : Byte)).length ≤ 255 ∧ ([] : List Byte).length ≤ 255 := by decide +kernel

/-- V-DEC-2, and V-DEC-5 with a command that encode refuses. -/
theorem test_witness_DecodeThenEncodeRoundTrips :
    decodeFrame [0xAA, 0x10, 0x01, 0x00, 0xBB] = some (.success ⟨0xAA, 0x10, 0x01, 0x00, [], 0xBB⟩) ∧
      decodeFrame [0xAA, 0x10, 0x02, 0x00, 0xB8] = some (.success ⟨0xAA, 0x10, 0x02, 0x00, [], 0xB8⟩) ∧
      decodeFrame [0xAA, 0x10, 0x03, 0x00, 0xB9] = some (.success ⟨0xAA, 0x10, 0x03, 0x00, [], 0xB9⟩) ∧
      (0x03 : Byte) ≠ 0x01 ∧ (0x03 : Byte) ≠ 0x02 := by decide

/-- Neighbours of the SET_GREEN_PWM shape, the longest Data, and a level. -/
theorem test_witness_EncodesEmitTheWireCommands :
    (List.replicate 255 (0 : Byte)).length ≤ 255 ∧ ¬((0x52 : Byte) = 0x52 ∧ [(0 : Byte)].length = 2) ∧
      ¬((0x53 : Byte) = 0x52 ∧ [(0 : Byte), 0].length = 2) ∧ levelBytes (BitVec.toInt (60001 : Level)) = [0xEA, 0x60] := by decide +kernel

/-- V-DEC-9. -/
theorem test_witness_WrongHeaderIsBadHeader :
    5 ≤ [(0x55 : Byte), 0x00, 0x00, 0x00, 0x55].length ∧ [(0x55 : Byte), 0x00, 0x00, 0x00, 0x55][0]? ≠ some 0xAA := by decide

/-- One offset for each error: the first, the Length byte, the last (V-MUT-0, V-MUT-3, V-MUT-6). -/
theorem test_witness_SingleByteChangesAreRejected :
    Emitted pwmFrame ∧ (0 < pwmFrame.length ∧ pwmFrame[0]? ≠ some 0xAB) ∧ (3 < pwmFrame.length ∧ pwmFrame[3]? ≠ some 0x03) ∧
      (6 < pwmFrame.length ∧ pwmFrame[6]? ≠ some 0x73) := ⟨emitted_pwmFrame, by decide⟩

/-- Cuts on both sides of five bytes, and one byte too many. -/
theorem test_witness_TruncatedOrExtendedFramesAreRejected :
    Emitted pwmFrame ∧ 0 < pwmFrame.length ∧ 4 < pwmFrame.length ∧ 5 < pwmFrame.length ∧ 6 < pwmFrame.length ∧
      [(0x00 : Byte)] ≠ [] := ⟨emitted_pwmFrame, by decide⟩

/-- V-DEC-20, whose XOR is the same, and V-DEC-21, a rearrangement; V-DEC-3 is the frame they come from. -/
theorem test_witness_UndetectedDamageIsAccepted :
    decodeFrame genFrame = some (.success ⟨0xAA, 0x10, 0x01, 0x04, [0xDE, 0xAD, 0xBE, 0xEF], 0x9D⟩) ∧
      (let g : List Byte := [0xAA, 0x10, 0x01, 0x04, 0xD1, 0xAD, 0xB1, 0xEF, 0x9D]
       g ≠ genFrame ∧ g.length = genFrame.length ∧ g[0]? = genFrame[0]? ∧ g[3]? = genFrame[3]? ∧ xorOf g = xorOf genFrame) ∧
      (let g : List Byte := [0xAA, 0x10, 0x01, 0x04, 0xAD, 0xDE, 0xBE, 0xEF, 0x9D]
       g ≠ genFrame ∧ g.length = genFrame.length ∧ g[0]? = genFrame[0]? ∧ g[3]? = genFrame[3]? ∧ List.Perm g genFrame) := by decide

theorem test_witness_DecodeAcceptsEveryCommand :
    (List.replicate 255 (0 : Byte)).length ≤ 255 ∧ (0x00 : Byte) ≠ 0x01 ∧ (0x00 : Byte) ≠ 0x02 := by decide +kernel

theorem test_witness_StreamingFramerBuildsTheFrame :
    (List.replicate 255 (0 : Byte)).length ≤ 255 ∧ 4 ≤ 4 + ([] : List Byte).length ∧
      259 ≤ 4 + (List.replicate 255 (0 : Byte)).length := by decide +kernel

theorem test_witness_StreamingDeframerIsDecode : Memory.wf dirtyWork.buf := test_dirty_buf.1

end Sys2Proof.Tests
end

/-! ## State: what every step keeps and what a response depends on

The proofs of the family 10_state.md. The layers are in order: `checksum` and `decode` on whole frames, the response
to an instruction, what one instruction does to the state (`exec_eq`), what one presentation does (`take_cases`), and
then the obligations. -/

section

namespace Sys2Proof.Machine

/-! ### Frames and packets -/

theorem checksum_append (s t : List Byte) : checksum (s ++ t) = checksum s ^^^ checksum t := by
  induction s with
  | nil => simp
  | cons b s ih => simp [checksum_cons, ih, BitVec.xor_assoc]

/-- Bytes followed by their own checksum fold to zero (40_framer_checksum.md R115). -/
theorem checksum_append_self (s : List Byte) : checksum (s ++ [checksum s]) = 0 := by
  simp [checksum_append, checksum_cons]

/-- A frame that `build_frame` makes may be carried by a response. -/
theorem frame_wf (a k : Byte) (d : List Byte) (h : d.length ≤ 255) :
    Response.wf (.bytes (.success (frameBody a k d ++ [checksum (frameBody a k d)]))) := by
  have hm : d.length % 256 = d.length := Nat.mod_eq_of_lt (by omega)
  have hlen : (frameBody a k d ++ [checksum (frameBody a k d)]).length = 5 + d.length := by simp; omega
  have hbyte : (frameBody a k d ++ [checksum (frameBody a k d)]).getD 3 0 = BitVec.ofNat 8 d.length := by
    simp [frameBody]
  refine ⟨by simp [frameBody], ?_, ?_, checksum_append_self _⟩
  · rw [hlen, hbyte, BitVec.toNat_ofNat, hm, config_minFrameLen]
  · rw [hlen, config_maxFrameLen]; omega

/-- Five bytes or more are four fields, some Data and a last byte. -/
theorem exists_fields_of_length (IN : List Byte) (h : 5 ≤ IN.length) :
    ∃ b0 b1 b2 b3 d c, IN = b0 :: b1 :: b2 :: b3 :: (d ++ [c]) := by
  match IN, h with
  | b0 :: b1 :: b2 :: b3 :: b4 :: rest, _ =>
    obtain ⟨d, c, hdc⟩ : ∃ d c, b4 :: rest = d ++ [c] :=
      ⟨_, _, (List.dropLast_append_getLast (List.cons_ne_nil b4 rest)).symm⟩
    exact ⟨b0, b1, b2, b3, d, c, by rw [hdc]⟩

/-- `decode` on a sequence cut into its fields: the three tests that are left, and the packet of those fields. -/
theorem decodeFrame_fields (b0 b1 b2 b3 c : Byte) (d : List Byte) :
    decodeFrame (b0 :: b1 :: b2 :: b3 :: (d ++ [c])) = some
      (if b0 ≠ 0xAA then .failure .badHeader
       else if d.length ≠ b3.toNat then .failure .lengthMismatch
       else if checksum (b0 :: b1 :: b2 :: b3 :: d) ≠ c then .failure .checksumMismatch
       else .success { header := b0, address := b1, command := b2, length := b3, data := d, checksum := c }) := by
  have hlen : (b0 :: b1 :: b2 :: b3 :: (d ++ [c])).length = 5 + d.length := by simp; omega
  have hcovered : (b0 :: b1 :: b2 :: b3 :: (d ++ [c])).take (4 + d.length) = b0 :: b1 :: b2 :: b3 :: d := by
    rw [Nat.add_comm]; simp
  have hlast : (b0 :: b1 :: b2 :: b3 :: (d ++ [c])).getD (4 + d.length) 0 = c := by
    rw [Nat.add_comm]; simp
  have h4 : 5 + d.length - 1 = 4 + d.length := by omega
  have htest : 5 + d.length ≠ 5 + b3.toNat ↔ d.length ≠ b3.toNat := by omega
  rw [decodeFrame_eq, hlen, if_neg (by omega), h4, hcovered, hlast]
  simp only [List.getD_cons_zero, List.getD_cons_succ, htest]
  by_cases hd : d.length = b3.toNat
  · rw [← hd, hlast]; simp
  · simp only [ne_eq, hd, not_false_eq_true, if_true]

/-- `decode` answers only well-formed packets, and only to the bytes that serialize them (42_generic_encode_decode.md R152). -/
theorem decodeFrame_success (IN : List Byte) (p : Packet) (h : decodeFrame IN = some (.success p)) :
    p.wf ∧ IN = serialize p := by
  have h5 : 5 ≤ IN.length := by
    by_contra hlt
    rw [decodeFrame_eq, if_pos (by omega)] at h
    cases h
  obtain ⟨b0, b1, b2, b3, d, c, rfl⟩ := exists_fields_of_length IN h5
  rw [decodeFrame_fields] at h
  split_ifs at h with h0 hd hc <;> cases h
  exact ⟨⟨not_not.1 h0, (not_not.1 hd).symm, (not_not.1 hc).symm⟩, rfl⟩

/-! ### The response -/

theorem packet_wf (IN : List Byte) (r : Response) (h : (decodeFrame IN).map .packet = some r) : r.wf := by
  obtain ⟨x, hx, rfl⟩ := Option.map_eq_some_iff.1 h
  cases x with
  | success p => exact (decodeFrame_success IN p hx).1
  | failure e => trivial

/-- Every response to an instruction may be carried (40_framer_checksum.md R115, 42_generic_encode_decode.md R152). -/
theorem respond_wf (i : Instr) (r : Response) (h : respond i = some r) : r.wf := by
  cases i with
  | encodePwm level =>
    rw [respond, encodePwm_eq] at h
    cases h
    exact frame_wf _ _ _ (by simp)
  | encodeGeneric a k d =>
    rw [respond, encodeGeneric_eq] at h
    split_ifs at h with hk hd <;> cases h
    · trivial
    · trivial
    · exact frame_wf _ _ _ (by omega)
  | checksum bytes => cases h; trivial
  | decode bytes => exact packet_wf _ _ h
  | cmdGenericA a d c => exact packet_wf _ _ h
  | cmdGenericB a d c => exact packet_wf _ _ h
  | setGreenPwm x l c => exact packet_wf _ _ h

/-- An instruction that is read from the wire is answered as DECODE of its own words (log 9). -/
theorem respond_of_encode_wire (i : Instr) (bytes : List Byte) (h : encode i = .wire bytes) :
    respond i = respond (.decode bytes) := by
  cases i <;> cases h <;> rfl

theorem wireBytes_of_length (addr cmd len c : Byte) (d : List Byte) (h : d.length = len.toNat) :
    wireBytes addr cmd d c = 0xAA :: addr :: cmd :: len :: (d ++ [c]) := by
  simp [wireBytes, h]

/-- Bytes that decode to a wire command are its words (30_encoding.md R80, R97). -/
theorem encode_of_decodeWire (bytes : List Byte) (i : Instr) (h : decodeWire bytes = .ok i) :
    encode i = .wire bytes := by
  match bytes with
  | header :: addr :: cmd :: len :: rest =>
    rw [decodeWire] at h
    by_cases hheader : header ≠ config.header
    · rw [if_pos hheader] at h; cases h
    by_cases hcmd : cmd ≠ codeGenericA ∧ cmd ≠ codeGenericB
    · rw [if_neg hheader, if_pos hcmd] at h; cases h
    rw [if_neg hheader, if_neg hcmd] at h
    obtain rfl : header = 0xAA := not_not.1 hheader
    cases hsplit : splitTail len rest with
    | none => rw [hsplit] at h; cases h
    | some tail =>
      obtain ⟨d, c⟩ := tail
      obtain ⟨rfl, hd⟩ := splitTail_some len rest d c hsplit
      rw [← wireBytes_of_length addr cmd len c d hd]
      simp only [hsplit] at h
      by_cases hA : cmd = codeGenericA
      · rw [if_pos hA] at h; cases h; rw [hA]; rfl
      · obtain rfl : cmd = codeGenericB := by tauto
        rw [if_neg hA] at h
        split at h
        · split_ifs at h with haddr
          · cases h; rw [haddr]; rfl
          · cases h; rfl
        · cases h; rfl

/-! ### One instruction -/

/-- The working registers that an instruction leaves, from those the transaction found (log 11). -/
def workAfter (i : Instr) (w : WorkRegs) : WorkRegs :=
  match i with
  | .encodePwm level => (framer 0x52 0x02 (pwmData (sext level)) w).2
  | .encodeGeneric a k d => if (k ≠ 0x01 ∧ k ≠ 0x02) ∨ 255 < d.length then w.start else (framer a k d w).2
  | .checksum bytes => foldBytes bytes w
  | .decode bytes => deframe bytes w
  | .cmdGenericA a d c => deframe (wireBytes a codeGenericA d c) w
  | .cmdGenericB a d c => deframe (wireBytes a codeGenericB d c) w
  | .setGreenPwm h l c => deframe (wireBytes 0x52 0x02 [h, l] c) w

/-- `receive_eq` in the form in which `exec_eq` states it. -/
theorem receive_eq_map (IN : List Byte) (s : State) : ∃ r, (decodeFrame IN).map .packet = some r ∧
    s.receive IN = .next { s with response := some r, work := deframe IN s.work } := by
  obtain ⟨x, hx, hs⟩ := receive_eq IN s
  exact ⟨.packet x, by rw [hx]; rfl, hs⟩

/-- What an instruction does, whatever the state: it completes with `respond`'s answer and leaves `workAfter` in the
working registers, and the queue as it was. -/
theorem exec_eq (i : Instr) (s : State) : ∃ r, respond i = some r ∧
    exec i s = .next { s with response := some r, work := workAfter i s.work } := by
  cases i with
  | encodePwm level =>
    refine ⟨_, by rw [respond, encodePwm_eq]; rfl, ?_⟩
    rw [exec_encodePwm, execEncodePwm_eq]; rfl
  | encodeGeneric a k d =>
    refine ⟨_, by rw [respond, encodeGeneric_eq]; rfl, ?_⟩
    rw [exec_encodeGeneric, execEncodeGeneric_eq, workAfter]
    by_cases hk : k ≠ 0x01 ∧ k ≠ 0x02
    · rw [if_pos hk, if_pos hk, if_pos (.inl hk)]; rfl
    · by_cases hd : 255 < d.length
      · rw [if_neg hk, if_pos hd, if_neg hk, if_pos hd, if_pos (.inr hd)]; rfl
      · rw [if_neg hk, if_neg hd, if_neg hk, if_neg hd, if_neg (by tauto)]; rfl
  | checksum bytes => exact ⟨_, rfl, rfl⟩
  | decode bytes => exact receive_eq_map _ _
  | cmdGenericA a d c => exact receive_eq_map _ _
  | cmdGenericB a d c => exact receive_eq_map _ _
  | setGreenPwm x l c => exact receive_eq_map _ _

/-- The framer's registers: the body's bytes pass one by one (40_framer_checksum.md R116). -/
theorem framer_snd (a k : Byte) (d : List Byte) (w : WorkRegs) :
    (framer a k d w).2 = (frameBody a k d).foldl WorkRegs.pass w.start := by
  simp only [framer, framerLoop_eq]

/-- A relation of two register sets that holds after the transaction's start, and that every byte keeps, holds after any
instruction. An invariant of one register set is the case of a relation that ignores the other. -/
theorem workAfter_rel {R : WorkRegs → WorkRegs → Prop} {w v : WorkRegs} (hstart : R w.start v.start)
    (hpass : ∀ w v b, R w v → R (w.pass b) (v.pass b))
    (hdeframe : ∀ w v b, R w v → R (deframeByte w b) (deframeByte v b)) (i : Instr) :
    R (workAfter i w) (workAfter i v) := by
  have passed (s : List Byte) : R (s.foldl WorkRegs.pass w.start) (s.foldl WorkRegs.pass v.start) :=
    List.foldl_rel hstart fun b _ _ _ => hpass _ _ b
  have deframed (s : List Byte) : R (deframe s w) (deframe s v) :=
    List.foldl_rel hstart fun b _ _ _ => hdeframe _ _ b
  cases i with
  | encodePwm level => simpa only [workAfter, framer_snd] using passed _
  | encodeGeneric a k d =>
    simp only [workAfter, framer_snd]
    split_ifs
    · exact hstart
    · exact passed _
  | checksum bytes => exact passed bytes
  | decode bytes => exact deframed _
  | cmdGenericA a d c => exact deframed _
  | cmdGenericB a d c => exact deframed _
  | setGreenPwm x l c => exact deframed _

/-! ### The invariant of the working registers -/

/-- The part of `State.Inv` that speaks of the working registers (10_state.md R32). -/
def WorkRegs.Inv (w : WorkRegs) : Prop := Memory.wf w.buf ∧ Memory.inBuf w.buf ∧ w.idx.toNat ≤ 261

theorem state_inv_iff (s : State) : s.Inv ↔ s.work.Inv ∧ ∀ r, s.response = some r → r.wf := by
  simp only [State.Inv, WorkRegs.Inv, and_assoc]

theorem workRegs_reset_inv : WorkRegs.reset.Inv := ⟨memory_wf_nil, by simp [WorkRegs.reset], by decide⟩

theorem countByte_le (idx : BitVec 9) : (countByte idx).toNat ≤ 261 := by
  rw [countByte_toNat]; omega

theorem start_inv (w : WorkRegs) (h : w.Inv) : w.start.Inv := by
  obtain ⟨hwf, hin, -⟩ := h
  exact ⟨hwf, hin, by simp⟩

theorem pass_inv (w : WorkRegs) (b : Byte) (h : w.Inv) : (w.pass b).Inv := by
  obtain ⟨hwf, hin, -⟩ := h
  exact ⟨hwf, hin, countByte_le _⟩

theorem deframeByte_inv (w : WorkRegs) (b : Byte) (h : w.Inv) : (deframeByte w b).Inv := by
  obtain ⟨hwf, hin, -⟩ := h
  obtain ⟨hwf', hin'⟩ := deframe_buf [b] w hwf
  exact ⟨hwf', hin' hin, countByte_le _⟩

theorem workAfter_inv (i : Instr) (w : WorkRegs) (h : w.Inv) : (workAfter i w).Inv :=
  workAfter_rel (R := fun w _ => w.Inv) (v := w) (start_inv w h) (fun w _ b => pass_inv w b)
    (fun w _ b => deframeByte_inv w b) i

/-! ### The registers that a transaction initialises -/

/-- The working registers that the start of a transaction initialises are equal (10_state.md R32). -/
def WorkRegs.Agree (w v : WorkRegs) : Prop :=
  w.acc = v.acc ∧ w.idx = v.idx ∧ w.lenr = v.lenr ∧ w.hdrOk = v.hdrOk

theorem start_agree (w v : WorkRegs) : w.start.Agree v.start := ⟨rfl, rfl, rfl, rfl⟩

theorem pass_agree (w v : WorkRegs) (b : Byte) (h : w.Agree v) : (w.pass b).Agree (v.pass b) := by
  obtain ⟨hacc, hidx, hlenr, hhdr⟩ := h
  exact ⟨by simp [hacc], by simp [hidx], hlenr, hhdr⟩

theorem deframeByte_agree (w v : WorkRegs) (b : Byte) (h : w.Agree v) :
    (deframeByte w b).Agree (deframeByte v b) := by
  obtain ⟨hacc, hidx, hlenr, hhdr⟩ := h
  exact ⟨by simp [hacc], by simp [hidx], by simp [hidx, hlenr], by simp [hidx, hhdr]⟩

/-- After an instruction the initialised registers do not depend on what the transaction found. -/
theorem workAfter_agree (i : Instr) (w v : WorkRegs) : (workAfter i w).Agree (workAfter i v) :=
  workAfter_rel (start_agree w v) pass_agree deframeByte_agree i

/-! ### One presentation -/

theorem take_of_decode_ok (h : HostInput) (i : Instr) (s : State) (hd : Sys2Proof.decode h = .ok i) :
    take h s = exec i s := by
  simp only [take, hd]

/-- What HOST presents is a reset, or it runs as an instruction that is answered as `respondTo` says. -/
theorem take_cases (h : HostInput) (s : State) :
    (∃ i, respond i = respondTo h ∧ take h s = exec i s) ∨ (h = .reset ∧ take h s = .next s.applyReset) := by
  cases h with
  | request r => exact .inl ⟨decodeRequest r, rfl, rfl⟩
  | command c => exact .inl ⟨decodeRequest c.toRequest, rfl, rfl⟩
  | wire bytes =>
    left
    cases hd : decodeWire bytes with
    | ok i => exact ⟨i, respond_of_encode_wire i bytes (encode_of_decodeWire bytes i hd), take_of_decode_ok _ i s hd⟩
    | error e => exact ⟨.decode bytes, rfl, by simp [take, decode, hd]⟩
  | reset => exact .inr ⟨rfl, rfl⟩

/-- Every presentation is taken: it is answered by itself alone and leaves the queue as it is. -/
theorem take_answers (h : HostInput) (s : State) :
    ∃ t, take h s = .next t ∧ t.presented = s.presented ∧ t.response = respondTo h := by
  obtain ⟨i, hresp, htake⟩ | ⟨rfl, htake⟩ := take_cases h s
  · obtain ⟨r, hr, hexec⟩ := exec_eq i s
    exact ⟨_, htake.trans hexec, rfl, hr.symm.trans hresp⟩
  · exact ⟨_, htake, rfl, rfl⟩

theorem take_inv (h : HostInput) (s t : State) (hs : s.Inv) (ht : take h s = .next t) : t.Inv := by
  obtain ⟨hwork, -⟩ := (state_inv_iff s).1 hs
  rw [state_inv_iff]
  obtain ⟨i, -, htake⟩ | ⟨-, htake⟩ := take_cases h s
  · obtain ⟨r, hr, hexec⟩ := exec_eq i s
    rw [htake, hexec] at ht
    cases ht
    refine ⟨workAfter_inv i _ hwork, fun r' hr' => ?_⟩
    cases hr'
    exact respond_wf i r hr
  · rw [htake] at ht
    cases ht
    exact ⟨workRegs_reset_inv, by simp⟩

/-! ### The obligations -/

/-- Settles O11: what a step takes is a reset or an instruction, and each keeps the invariant. -/
theorem stepKeepsTheInvariant : Obligations.StepKeepsTheInvariant := by
  intro s t hs ht
  cases hp : s.presented with
  | nil => rw [step_nil s hp] at ht; cases ht; exact hs
  | cons h rest => rw [step_cons s h rest hp] at ht; exact take_inv h { s with presented := rest } t hs ht

/-- Settles O14: the response is `respond`'s, and the initialised registers agree from the start of the transaction on. -/
theorem responseDependsOnTheRequestAlone : Obligations.ResponseDependsOnTheRequestAlone := by
  intro i s u
  obtain ⟨r, hr, hs⟩ := exec_eq i s
  obtain ⟨r', hr', hu⟩ := exec_eq i u
  exact ⟨_, _, hs, hu, rfl, hr.symm.trans hr', workAfter_agree i s.work u.work⟩

/-- Settles O15, by induction on the presentations that run before the last one. -/
theorem runsAnswerEachRequestAlone : Obligations.RunsAnswerEachRequestAlone := by
  intro s before h rest
  induction before generalizing s with
  | nil =>
    intro hp
    obtain ⟨t, ht, hrest, hresp⟩ := take_answers h { s with presented := rest }
    exact ⟨t, run_succ_of_next 0 s t ((step_cons s h rest hp).trans ht), hrest, hresp⟩
  | cons g before ih =>
    intro hp
    obtain ⟨u, hu, hqueue, -⟩ := take_answers g { s with presented := before ++ h :: rest }
    obtain ⟨t, hrun, ht⟩ := ih u hqueue
    exact ⟨t, (run_succ_of_next _ s u ((step_cons s g _ hp).trans hu)).trans hrun, ht⟩

/-- Settles O7. -/
theorem stepRunsTheDecodedInstruction : Obligations.StepRunsTheDecodedInstruction := by
  intro s h rest i hp hd
  rw [step_cons s h rest hp, take_of_decode_ok h i _ hd]

/-- Settles O6: the two records decode to one instruction, which is what the two steps run. -/
theorem unreadRequestFieldsHaveNoEffect : Obligations.UnreadRequestFieldsHaveNoEffect := by
  intro s q r hop hread
  have run (x : Request) : step { s with presented := .request x :: s.presented } = exec (decodeRequest x) s :=
    stepRunsTheDecodedInstruction _ _ s.presented _ rfl rfl
  have hdecode : decodeRequest q = decodeRequest r := by
    unfold decodeRequest
    rw [← hop]
    obtain ⟨h0, hlevel⟩ | ⟨h1, haddr, hcmd, hin⟩ | ⟨h2 | h3, hin⟩ := hread
    · rw [h0, hlevel]; rfl
    · rw [h1, haddr, hcmd, hin]; rfl
    · rw [h2, hin]; rfl
    · rw [h3, hin]; rfl
  rw [run q, run r, hdecode]

/-- Settles O12: BUF is empty, IDX is 0 and there is no response. -/
theorem resetHasTheInvariant : Obligations.ResetHasTheInvariant :=
  (state_inv_iff _).2 ⟨workRegs_reset_inv, by simp⟩

/-- Settles O13: a presented reset is no instruction, so the step is `applyReset`. -/
theorem resetLeavesTheSpecsValues : Obligations.ResetLeavesTheSpecsValues := by
  refine ⟨⟨rfl, rfl, rfl, rfl, rfl⟩, fun s rest hp => ?_⟩
  exact ⟨_, step_cons s .reset rest hp, rfl, rfl, rfl, rfl, rfl, rfl⟩

end Sys2Proof.Machine

end

/-! ## Memory: byte order and repetition

The proofs of the family 20_memory.md. First the bytes of the clamped level; then what the deframer leaves in its latches
and in BUF, which makes the working registers after an instruction a fixed point of that instruction. -/

section

namespace Sys2Proof.Machine

/-! ### The bytes of the clamped level -/

/-- The level's range (41_pwm_clamp_serialize.md R133 (a)). -/
theorem clamp_bounds (v : Int) : 0 ≤ clamp v ∧ clamp v ≤ 60000 := by
  simp only [clamp]
  split_ifs <;> omega

/-- A clamped level fits the source's `u16`: narrowing loses nothing (90_conflicts.md C1). -/
theorem clampedLevel_toNat (v : Int) : ((clampedLevel v).toNat : Int) = clamp v := by
  obtain ⟨hmin, hmax⟩ := clamp_bounds v
  rw [clampedLevel, BitVec.toNat_ofInt]
  omega

theorem highByte_toNat (c : U16) : (c.extractLsb' 8 8).toNat = c.toNat / 256 := by
  have hc := c.isLt
  rw [BitVec.extractLsb'_toNat, Nat.shiftRight_eq_div_pow]
  omega

theorem lowByte_toNat (c : U16) : (c.extractLsb' 0 8).toNat = c.toNat % 256 := by
  rw [BitVec.extractLsb'_toNat, Nat.shiftRight_zero]

/-! ### What the deframer leaves in the latches and in BUF -/

theorem getD_concat {α : Type} (s : List α) (b x : α) (n : Nat) :
    (s ++ [b]).getD n x = if s.length = n then b else s.getD n x := by
  obtain h | rfl | h := lt_trichotomy n s.length
  · rw [List.getD_append _ _ _ _ h, if_neg h.ne']
  · simp
  · rw [if_neg h.ne, List.getD_eq_default _ _ h.le, List.getD_eq_default _ _ (by simpa using h)]

theorem getD_getD_self {α : Type} (s : List α) (x : α) (n : Nat) : s.getD n (s.getD n x) = s.getD n x := by
  simp only [List.getD_eq_getElem?_getD]
  cases s[n]? <;> rfl

theorem deframe_concat (s : List Byte) (b : Byte) (w : WorkRegs) :
    deframe (s ++ [b]) w = deframeByte (deframe s w) b := List.foldl_concat ..

theorem deframe_wf (s : List Byte) (w : WorkRegs) (h : Memory.wf w.buf) : Memory.wf (deframe s w).buf :=
  (deframe_buf s w.start h).1

/-- IDX after the bytes of IN: their number, held at 261 (40_framer_checksum.md R117). -/
theorem deframe_idx (s : List Byte) (w : WorkRegs) : (deframe s w).idx.toNat = min s.length 261 := by
  rw [deframe, (deframe_acc_idx s w.start).2, count_bytes _ _ (by simp)]
  simp

/-- The latch of offset 1 keeps its value when IN is too short to have that byte. -/
theorem deframe_adr (s : List Byte) (w : WorkRegs) : (deframe s w).adr = s.getD 1 w.adr := by
  induction s using List.reverseRecOn with
  | nil => rfl
  | append_singleton s b ih =>
    have hidx : min s.length 261 = 1 ↔ s.length = 1 := by omega
    simp only [deframe_concat, deframeByte_adr, deframe_idx, getD_concat, ih, hidx]

/-- The latch of offset 2, likewise. -/
theorem deframe_cmdr (s : List Byte) (w : WorkRegs) : (deframe s w).cmdr = s.getD 2 w.cmdr := by
  induction s using List.reverseRecOn with
  | nil => rfl
  | append_singleton s b ih =>
    have hidx : min s.length 261 = 2 ↔ s.length = 2 := by omega
    simp only [deframe_concat, deframeByte_cmdr, deframe_idx, getD_concat, ih, hidx]

/-- BUF takes the bytes of IN at the offsets 4 to 259 that IN has; every other byte of BUF stays
(40_framer_checksum.md R117). -/
theorem deframe_read (s : List Byte) (w : WorkRegs) (h : Memory.wf w.buf) (a : Nat) :
    Memory.read (deframe s w).buf a =
      if a < 256 then s.getD (a + 4) (Memory.read w.buf a) else Memory.read w.buf a := by
  induction s using List.reverseRecOn with
  | nil => exact (ite_self _).symm
  | append_singleton s b ih =>
    rw [deframe_concat, deframeByte_buf, deframe_idx, getD_concat]
    by_cases hs : 4 ≤ min s.length 261 ∧ min s.length 261 ≤ 259
    · have hoffset : a = min s.length 261 - 4 ↔ s.length = a + 4 := by omega
      rw [if_pos hs, memory_read_write _ _ _ _ (deframe_wf s w h), ih]
      by_cases ha : s.length = a + 4
      · rw [if_pos (hoffset.2 ha), if_pos (by omega), if_pos ha]
      · rw [if_neg (mt hoffset.1 ha), if_neg ha]
    · rw [if_neg hs, ih]
      by_cases ha : a < 256
      · rw [if_pos ha, if_pos ha, if_neg (by omega)]
      · rw [if_neg ha, if_neg ha]

/-! ### The second run of an instruction -/

theorem workRegs_ext_of_agree (w v : WorkRegs) (h : w.Agree v) (hadr : w.adr = v.adr) (hcmdr : w.cmdr = v.cmdr)
    (hbuf : w.buf = v.buf) : w = v := by
  obtain ⟨hacc, hidx, hlenr, hhdr⟩ := h
  cases w
  simp_all

/-- Receiving a frame again stores the same bytes at the same offsets. -/
theorem deframe_deframe (s : List Byte) (w : WorkRegs) (h : Memory.wf w.buf) :
    deframe s (deframe s w) = deframe s w := by
  have hwf := deframe_wf s w h
  refine workRegs_ext_of_agree _ _ (workAfter_agree (.decode s) _ _) ?_ ?_ ?_
  · rw [deframe_adr, deframe_adr, getD_getD_self]
  · rw [deframe_cmdr, deframe_cmdr, getD_getD_self]
  · refine memory_ext _ _ (deframe_wf s _ hwf) hwf fun a => ?_
    rw [deframe_read s _ hwf, deframe_read s w h]
    by_cases ha : a < 256
    · simp only [if_pos ha, getD_getD_self]
    · simp only [if_neg ha]

/-- Passing bytes depends on nothing that the transaction found in ACC and IDX, and leaves the latches and BUF alone. -/
theorem foldBytes_foldBytes (s : List Byte) (w : WorkRegs) : foldBytes s (foldBytes s w) = foldBytes s w := by
  simp only [foldBytes, fold_pass]
  rfl

/-- An instruction passes some bytes through ACC and IDX, or it receives some bytes. An encode error passes none. -/
theorem workAfter_cases (i : Instr) :
    ∃ s, (∀ w, workAfter i w = foldBytes s w) ∨ ∀ w, workAfter i w = deframe s w := by
  cases i with
  | encodePwm level => exact ⟨_, .inl fun w => framer_snd ..⟩
  | encodeGeneric a k d =>
    by_cases herr : (k ≠ 0x01 ∧ k ≠ 0x02) ∨ 255 < d.length
    · exact ⟨[], .inl fun w => if_pos herr⟩
    · exact ⟨_, .inl fun w => (if_neg herr).trans (framer_snd ..)⟩
  | checksum bytes => exact ⟨_, .inl fun w => rfl⟩
  | decode bytes => exact ⟨_, .inr fun w => rfl⟩
  | cmdGenericA a d c => exact ⟨_, .inr fun w => rfl⟩
  | cmdGenericB a d c => exact ⟨_, .inr fun w => rfl⟩
  | setGreenPwm x l c => exact ⟨_, .inr fun w => rfl⟩

theorem workAfter_workAfter (i : Instr) (w : WorkRegs) (h : Memory.wf w.buf) :
    workAfter i (workAfter i w) = workAfter i w := by
  obtain ⟨s, hfold | hdeframe⟩ := workAfter_cases i
  · simp only [hfold, foldBytes_foldBytes]
  · simp only [hdeframe, deframe_deframe s w h]

/-! ### The obligations -/

/-- Settles O16: the response is the instruction's alone, and the registers it leaves are a fixed point of it. -/
theorem repeatingATransactionChangesNothing : Obligations.RepeatingATransactionChangesNothing := by
  intro i s t hwf hs
  obtain ⟨r, hr, hexec⟩ := exec_eq i s
  obtain rfl := Host.Outcome.next.inj (hexec.symm.trans hs)
  obtain ⟨r', hr', hagain⟩ := exec_eq i { s with response := some r, work := workAfter i s.work }
  obtain rfl := Option.some.inj (hr.symm.trans hr')
  rw [hagain, workAfter_workAfter i s.work hwf]

/-- Settles O30: the Data bytes are the two halves of the clamped level, high byte first, and narrowing it to 16 bits
loses nothing. -/
theorem levelIsBigEndianInTheFrame : Obligations.LevelIsBigEndianInTheFrame := by
  intro v
  obtain ⟨hmin, hmax⟩ := clamp_bounds v
  refine ⟨_, (clampedLevel v).extractLsb' 8 8, (clampedLevel v).extractLsb' 0 8, encodePwm_eq v, hmin, hmax,
    rfl, rfl, ?_, ?_⟩
  · rw [highByte_toNat, ← clampedLevel_toNat]; rfl
  · rw [lowByte_toNat, ← clampedLevel_toNat]; rfl

end Sys2Proof.Machine

end

/-! ## Encoding: the rows of the wire commands and the fields of a frame

The proofs of the family 30_encoding.md. First the decoder of the wire on a sequence cut into its fields, and the masks of the
opcode table on the first four bytes; then a frame that an encode emits as `plainFrame`, and what `decode` answers to
such a frame; then the obligations. -/

section

namespace Sys2Proof.Machine

/-! ### The rows of the wire commands -/

theorem codeGenericA_eq : codeGenericA = 0x01 := rfl
theorem codeGenericB_eq : codeGenericB = 0x02 := rfl

theorem isPwmShape_iff (a : Byte) (d : List Byte) : isPwmShape a d = true ↔ a = 0x52 ∧ d.length = 2 := by
  simp [isPwmShape]

/-- The rows in the order in which the decoder tries them (30_encoding.md R97; log 18). -/
theorem decodeWire_fields (b0 b1 b2 b3 c : Byte) (d : List Byte) :
    decodeWire (b0 :: b1 :: b2 :: b3 :: (d ++ [c])) =
      if b0 ≠ 0xAA then .error .notAFrame
      else if b2 ≠ 0x01 ∧ b2 ≠ 0x02 then .error .commandNotListed
      else if d.length ≠ b3.toNat then .error .wrongLength
      else if b2 = 0x01 then .ok (.cmdGenericA b1 d c)
      else if isPwmShape b1 d then .ok (.setGreenPwm (d.getD 0 0) (d.getD 1 0) c)
      else .ok (.cmdGenericB b1 d c) := by
  rw [decodeWire, splitTail_append, codeGenericA_eq, codeGenericB_eq]
  by_cases h0 : b0 ≠ 0xAA
  · rw [if_pos h0, if_pos h0]
  by_cases h2 : b2 ≠ 0x01 ∧ b2 ≠ 0x02
  · rw [if_neg h0, if_pos h2, if_neg h0, if_pos h2]
  rw [if_neg h0, if_neg h2, if_neg h0, if_neg h2]
  by_cases hd : d.length = b3.toNat
  · rw [if_pos hd, if_neg (not_not.2 hd)]
    match d with
    | [] | [_] | [_, _] | _ :: _ :: _ :: _ => simp [isPwmShape]
  · rw [if_neg hd, if_pos hd]

theorem decodeWire_notAFrame (b0 b1 b2 b3 c : Byte) (d : List Byte) (h : b0 ≠ 0xAA) :
    decodeWire (b0 :: b1 :: b2 :: b3 :: (d ++ [c])) = .error .notAFrame := by
  rw [decodeWire_fields, if_pos h]

theorem decodeWire_commandNotListed (b1 b2 b3 c : Byte) (d : List Byte) (h : b2 ≠ 0x01 ∧ b2 ≠ 0x02) :
    decodeWire (0xAA :: b1 :: b2 :: b3 :: (d ++ [c])) = .error .commandNotListed := by
  rw [decodeWire_fields, if_neg (not_not.2 rfl), if_pos h]

/-- The row of CMD_GENERIC_A. -/
theorem decodeWire_genericA (a len c : Byte) (d : List Byte) (h : d.length = len.toNat) :
    decodeWire (0xAA :: a :: 0x01 :: len :: (d ++ [c])) = .ok (.cmdGenericA a d c) := by
  simp [decodeWire_fields, h]

/-- The row of CMD_GENERIC_B, for a frame that the row of SET_GREEN_PWM leaves to it. -/
theorem decodeWire_genericB (a len c : Byte) (d : List Byte) (h : d.length = len.toNat)
    (hshape : ¬(a = 0x52 ∧ d.length = 2)) :
    decodeWire (0xAA :: a :: 0x02 :: len :: (d ++ [c])) = .ok (.cmdGenericB a d c) := by
  rw [← isPwmShape_iff] at hshape
  simp [decodeWire_fields, h, hshape]

/-- The row of SET_GREEN_PWM. -/
theorem decodeWire_setGreenPwm (h l c : Byte) :
    decodeWire [0xAA, 0x52, 0x02, 0x02, h, l, c] = .ok (.setGreenPwm h l c) := rfl

/-- What the rows answer is well formed: Data fits its Length byte, and a frame of the shape of SET_GREEN_PWM does not
reach the row of CMD_GENERIC_B. -/
theorem wf_of_decodeWire_fields (b0 b1 b2 b3 c : Byte) (d : List Byte) (i : Instr)
    (h : decodeWire (b0 :: b1 :: b2 :: b3 :: (d ++ [c])) = .ok i) : i.wf = true := by
  rw [decodeWire_fields] at h
  split_ifs at h with h0 h2 hlen hA hshape
  all_goals
    cases h
    have hd : d.length ≤ 255 := by omega
  · simp [Instr.wf, hd]
  · rfl
  · simp [Instr.wf, hd, hshape]

theorem wf_of_decodeWire (bytes : List Byte) (i : Instr) (h : decodeWire bytes = .ok i) : i.wf = true := by
  have henc := encode_of_decodeWire bytes i h
  cases i with
  | encodePwm level => rfl
  | encodeGeneric a k d => rfl
  | checksum IN => rfl
  | decode IN => rfl
  | cmdGenericA a d c => cases henc; exact wf_of_decodeWire_fields _ _ _ _ _ _ _ h
  | cmdGenericB a d c => cases henc; exact wf_of_decodeWire_fields _ _ _ _ _ _ _ h
  | setGreenPwm x l c => rfl

/-! ### The masks of the opcode table -/

theorem append_eq_append_iff {m n : Nat} (x y : BitVec m) (u v : BitVec n) : x ++ u = y ++ v ↔ x = y ∧ u = v := by
  refine ⟨fun h => ⟨?_, ?_⟩, by rintro ⟨rfl, rfl⟩; rfl⟩
  · rw [← BitVec.extractLsb'_append_eq_left (a := x) (b := u), h, BitVec.extractLsb'_append_eq_left]
  · rw [← BitVec.setWidth_append_eq_right (a := x) (b := u), h, BitVec.setWidth_append_eq_right]

/-- A mask on the word of four bytes masks each byte (30_encoding.md R97). -/
theorem word_and_eq_iff (b0 b1 b2 b3 m0 m1 m2 m3 v0 v1 v2 v3 : Byte) :
    ((b0 ++ b1 ++ b2 ++ b3 : BitVec 32) &&& (m0 ++ m1 ++ m2 ++ m3 : BitVec 32)) = (v0 ++ v1 ++ v2 ++ v3 : BitVec 32) ↔
      b0 &&& m0 = v0 ∧ b1 &&& m1 = v1 ∧ b2 &&& m2 = v2 ∧ b3 &&& m3 = v3 := by
  rw [BitVec.and_append, BitVec.and_append, BitVec.and_append, append_eq_append_iff, append_eq_append_iff,
    append_eq_append_iff, and_assoc, and_assoc]

theorem byte_and_FF (b : Byte) : b &&& 0xFF = b := BitVec.and_allOnes

theorem byte_and_00 (b : Byte) : b &&& 0x00 = 0x00 := BitVec.and_zero

/-- Mask and match of the two generic rows test the Header byte and the Command byte. -/
theorem word_matches_command (b0 b1 b2 b3 k : Byte) :
    ((b0 ++ b1 ++ b2 ++ b3 : BitVec 32) &&& 0xFF00FF00) =
        ((0xAA : Byte) ++ (0x00 : Byte) ++ k ++ (0x00 : Byte) : BitVec 32) ↔ b0 = 0xAA ∧ b2 = k := by
  have hmask : (0xFF00FF00 : BitVec 32) = (0xFF : Byte) ++ (0x00 : Byte) ++ (0xFF : Byte) ++ (0x00 : Byte) := rfl
  simp only [hmask, word_and_eq_iff, byte_and_FF, byte_and_00, true_and, and_true]

/-- Mask and match of SET_GREEN_PWM test all four bytes. -/
theorem word_matches_setGreenPwm (b0 b1 b2 b3 : Byte) :
    ((b0 ++ b1 ++ b2 ++ b3 : BitVec 32) &&& 0xFFFFFFFF) = 0xAA520202 ↔
      b0 = 0xAA ∧ b1 = 0x52 ∧ b2 = 0x02 ∧ b3 = 0x02 := by
  have hmask : (0xFFFFFFFF : BitVec 32) = (0xFF : Byte) ++ (0xFF : Byte) ++ (0xFF : Byte) ++ (0xFF : Byte) := rfl
  have hmatch : (0xAA520202 : BitVec 32) = (0xAA : Byte) ++ (0x52 : Byte) ++ (0x02 : Byte) ++ (0x02 : Byte) := rfl
  simp only [hmask, hmatch, word_and_eq_iff, byte_and_FF]

/-! ### The frames that the encodes emit -/

/-- `checksum` is the XOR of its bytes (40_framer_checksum.md R114). -/
theorem checksum_eq_xorOf (s : List Byte) : checksum s = xorOf s := by
  induction s with
  | nil => rfl
  | cons b s ih => rw [checksum_cons, ih, xorOf]

theorem xorOf_frameBody (a k : Byte) (d : List Byte) : xorOf (frameBody a k d) = (plainPacket a k d).checksum := by
  simp [frameBody, xorOf, plainPacket, BitVec.xor_assoc]

/-- A body followed by its checksum is the frame of the spec's formula (42_generic_encode_decode.md R157). -/
theorem frameBody_checksum (a k : Byte) (d : List Byte) :
    frameBody a k d ++ [checksum (frameBody a k d)] = plainFrame a k d := by
  rw [checksum_eq_xorOf, xorOf_frameBody]; rfl

theorem plainFrame_eq_wireBytes (a k : Byte) (d : List Byte) :
    plainFrame a k d = wireBytes a k d (plainPacket a k d).checksum := rfl

theorem encodeGeneric_success_iff (a k : Byte) (d f : List Byte) :
    encodeGeneric a k d = some (.success f) ↔ (k = 0x01 ∨ k = 0x02) ∧ d.length ≤ 255 ∧ f = plainFrame a k d := by
  rw [encodeGeneric_eq, frameBody_checksum]
  constructor
  · intro h
    split_ifs at h with hk hd
    · cases h
    · cases h
    · cases h
      exact ⟨by tauto, by omega, rfl⟩
  · rintro ⟨hk, hd, rfl⟩
    rw [if_neg (by tauto), if_neg (by omega)]

theorem encodePwm_eq_plainFrame (v : Int) : encodePwm v = some (plainFrame 0x52 0x02 (pwmData v)) := by
  rw [encodePwm_eq, frameBody_checksum]

theorem exists_plainFrame_of_emitted (f : List Byte) (h : Emitted f) : ∃ a k d, f = plainFrame a k d := by
  obtain ⟨v, hv⟩ | ⟨a, k, d, hf⟩ := h
  · rw [encodePwm_eq_plainFrame] at hv
    exact ⟨_, _, _, (Option.some.inj hv).symm⟩
  · obtain ⟨-, -, rfl⟩ := (encodeGeneric_success_iff a k d f).1 hf
    exact ⟨a, k, d, rfl⟩

/-- The Length byte holds an admitted length exactly (30_encoding.md R85). -/
theorem lengthByte_toNat (d : List Byte) (h : d.length ≤ 255) : (BitVec.ofNat 8 d.length).toNat = d.length := by
  rw [BitVec.toNat_ofNat]; omega

/-- The clamp in closed form (41_pwm_clamp_serialize.md R133 (e)). -/
theorem clamp_eq_saturated (v : Int) : clamp v = saturated v := by
  simp only [clamp, saturated]
  split_ifs <;> omega

/-- The Data bytes of the PWM frame are those of the spec's formula (30_encoding.md R89). -/
theorem pwmData_eq_levelBytes (v : Int) : pwmData v = levelBytes v := by
  have hnat := clampedLevel_toNat v
  obtain ⟨hmin, hmax⟩ := clamp_bounds v
  have hhigh : (clampedLevel v).extractLsb' 8 8 = BitVec.ofInt 8 (clamp v / 256) := by
    apply BitVec.eq_of_toNat_eq
    rw [highByte_toNat, BitVec.toNat_ofInt]; omega
  have hlow : (clampedLevel v).extractLsb' 0 8 = BitVec.ofInt 8 (clamp v % 256) := by
    apply BitVec.eq_of_toNat_eq
    rw [lowByte_toNat, BitVec.toNat_ofInt]; omega
  rw [pwmData, split16, hhigh, hlow, levelBytes, clamp_eq_saturated]

/-! ### What `decode` answers to a frame -/

/-- `decode` on the bytes of a wire command: the one test that is left is the checksum's. -/
theorem decodeFrame_wireBytes (a k c : Byte) (d : List Byte) (h : d.length ≤ 255) :
    decodeFrame (wireBytes a k d c) = some
      (if c = (plainPacket a k d).checksum then .success (plainPacket a k d) else .failure .checksumMismatch) := by
  have hcover : checksum (0xAA :: a :: k :: BitVec.ofNat 8 d.length :: d) = (plainPacket a k d).checksum :=
    (checksum_eq_xorOf _).trans (xorOf_frameBody a k d)
  rw [wireBytes_of_length a k _ c d (lengthByte_toNat d h).symm, decodeFrame_fields, hcover, lengthByte_toNat d h]
  by_cases hc : c = (plainPacket a k d).checksum
  · rw [if_neg (not_not.2 rfl), if_neg (not_not.2 rfl), if_neg (not_not.2 hc.symm), if_pos hc, hc]; rfl
  · rw [if_neg (not_not.2 rfl), if_neg (not_not.2 rfl), if_pos (Ne.symm hc), if_neg hc]

/-- A frame with a right checksum is accepted, whatever its address, command and data (42_generic_encode_decode.md R153). -/
theorem decodeFrame_plainFrame (a k : Byte) (d : List Byte) (h : d.length ≤ 255) :
    decodeFrame (plainFrame a k d) = some (.success (plainPacket a k d)) := by
  rw [plainFrame_eq_wireBytes, decodeFrame_wireBytes a k _ d h, if_pos rfl]

theorem serialize_length (p : Packet) : (serialize p).length = 5 + p.data.length := by
  simp [serialize]; omega

/-! ### What the encodes and SET_GREEN_PWM answer -/

/-- An instruction is answered with `respond`'s response, from every state. -/
theorem exec_answers (i : Instr) (s : State) (r : Response) (h : respond i = some r) :
    ∃ t, exec i s = .next t ∧ t.presented = s.presented ∧ t.response = some r := by
  obtain ⟨r', hr', ht⟩ := exec_eq i s
  exact ⟨_, ht, rfl, hr'.symm.trans h⟩

/-- The checksum byte of the frame AA 52 02 02 h l (30_encoding.md R88). -/
theorem plainPacket_setGreenPwm_checksum (h l : Byte) :
    (plainPacket 0x52 0x02 [h, l]).checksum = 0xF8 ^^^ h ^^^ l := by
  simp [plainPacket, xorOf, BitVec.xor_assoc]

/-- ENCODE_GENERIC answers the frame of the spec's formula, from every state (42_generic_encode_decode.md R150). -/
theorem exec_encodeGeneric_answers (a k : Byte) (d : List Byte) (s : State) (hk : k = 0x01 ∨ k = 0x02)
    (hd : d.length ≤ 255) : ∃ t, exec (.encodeGeneric a k d) s = .next t ∧
      t.response = some (.bytes (.success (plainFrame a k d))) := by
  obtain ⟨t, ht, -, hr⟩ := exec_answers (.encodeGeneric a k d) s (.bytes (.success (plainFrame a k d)))
    (by rw [respond, (encodeGeneric_success_iff a k d _).2 ⟨hk, hd, rfl⟩]; rfl)
  exact ⟨t, ht, hr⟩

/-- ENCODE_PWM, likewise (41_pwm_clamp_serialize.md R132). -/
theorem exec_encodePwm_answers (level : Level) (s : State) : ∃ t, exec (.encodePwm level) s = .next t ∧
      t.response = some (.bytes (.success (plainFrame 0x52 0x02 (levelBytes level.toInt)))) := by
  obtain ⟨t, ht, -, hr⟩ := exec_answers (.encodePwm level) s _ (by rw [respond, encodePwm_eq_plainFrame]; rfl)
  exact ⟨t, ht, by rw [hr, pwmData_eq_levelBytes]; rfl⟩

theorem decode_plainFrame_setGreenPwm (h l : Byte) :
    Sys2Proof.decode (.wire (plainFrame 0x52 0x02 [h, l])) = .ok (.setGreenPwm h l (0xF8 ^^^ h ^^^ l)) := by
  rw [← plainPacket_setGreenPwm_checksum]
  exact decodeWire_setGreenPwm h l _

/-! ### The obligations -/

/-- Settles O1: a request is told by its `op`, and a wire command by its row, of which `Instr.wf` leaves one. -/
theorem decodeOfEncodeIsIdentity : Obligations.DecodeOfEncodeIsIdentity := by
  intro i hwf
  cases i with
  | encodePwm level => rfl
  | encodeGeneric a k d => rfl
  | checksum bytes => rfl
  | decode bytes => rfl
  | cmdGenericA a d c =>
    have hd : d.length ≤ 255 := by simpa [Instr.wf] using hwf
    exact decodeWire_genericA a _ c d (lengthByte_toNat d hd).symm
  | cmdGenericB a d c =>
    obtain ⟨hd, hshape⟩ : d.length ≤ 255 ∧ isPwmShape a d = false := by simpa [Instr.wf] using hwf
    refine decodeWire_genericB a _ c d (lengthByte_toNat d hd).symm ?_
    rw [← isPwmShape_iff, hshape]
    exact Bool.false_ne_true
  | setGreenPwm h l c => exact decodeWire_setGreenPwm h l c

/-- Settles O2: each row that answers has tested what `Instr.wf` asks, and its bytes are the words of the answer. -/
theorem wireBytesHaveOneReading : Obligations.WireBytesHaveOneReading :=
  fun bytes i h => ⟨wf_of_decodeWire bytes i h, encode_of_decodeWire bytes i h⟩

/-- Settles O4: the masks are tests of single bytes, and those are the decoder's. -/
theorem wireRowsMatchByMask : Obligations.WireRowsMatchByMask := by
  intro b0 b1 b2 b3 d ck hd W got
  have hA : W &&& 0xFF00FF00 = 0xAA000100 ↔ b0 = 0xAA ∧ b2 = 0x01 := word_matches_command b0 b1 b2 b3 0x01
  have hB : W &&& 0xFF00FF00 = 0xAA000200 ↔ b0 = 0xAA ∧ b2 = 0x02 := word_matches_command b0 b1 b2 b3 0x02
  have hS : W &&& 0xFFFFFFFF = 0xAA520202 ↔ b0 = 0xAA ∧ b1 = 0x52 ∧ b2 = 0x02 ∧ b3 = 0x02 :=
    word_matches_setGreenPwm b0 b1 b2 b3
  simp only [ne_eq, hA, hB, hS]
  refine ⟨?_, ?_, ?_, fun hnA hnB => ?_⟩
  · rintro ⟨rfl, rfl⟩
    exact decodeWire_genericA b1 b3 ck d hd
  · rintro ⟨rfl, rfl⟩ hnS
    refine decodeWire_genericB b1 b3 ck d hd fun ⟨haddr, hlen⟩ => hnS ⟨rfl, haddr, rfl, ?_⟩
    exact BitVec.eq_of_toNat_eq (hd.symm.trans hlen)
  · rintro ⟨rfl, rfl, rfl, rfl⟩
    obtain ⟨h, l, rfl⟩ := List.length_eq_two.1 hd
    exact ⟨h, l, rfl, decodeWire_setGreenPwm h l ck⟩
  · by_cases h0 : b0 = 0xAA
    · subst h0
      have h2 : b2 ≠ 0x01 ∧ b2 ≠ 0x02 := by tauto
      exact ⟨_, decodeWire_commandNotListed b1 b2 b3 ck d h2⟩
    · exact ⟨_, decodeWire_notAFrame b0 b1 b2 b3 ck d h0⟩

/-- Settles O22: the response is `decode`'s to the frame, and the level's bytes meet no test. -/
theorem setGreenPwmResult : Obligations.SetGreenPwmResult := by
  intro h l c s
  refine exec_answers (.setGreenPwm h l c) s _ ?_
  rw [respond, decodeFrame_wireBytes _ _ _ _ (by simp), plainPacket_setGreenPwm_checksum]
  by_cases hc : c = 0xF8 ^^^ h ^^^ l
  · rw [if_pos hc, if_pos hc, hc, ← plainPacket_setGreenPwm_checksum]; rfl
  · rw [if_neg hc, if_neg hc]; rfl

/-- Settles O38: offset 1 of a frame is its address, and `decode` does not test it. -/
theorem addressField : Obligations.AddressField := by
  refine ⟨fun v => ⟨_, encodePwm_eq_plainFrame v, rfl⟩, fun a k d f hf => ?_, fun bytes p hp => ?_,
    fun a k d _ hd => ⟨_, decodeFrame_plainFrame a k d hd, rfl⟩⟩
  · obtain ⟨-, -, rfl⟩ := (encodeGeneric_success_iff a k d f).1 hf
    rfl
  · obtain ⟨-, rfl⟩ := decodeFrame_success bytes p hp
    rfl

/-- Settles O39: what is accepted serializes a well-formed packet, whose Length is the number of its data bytes. -/
theorem lengthField : Obligations.LengthField := by
  refine ⟨fun a k d f hf => ?_, fun v => ⟨_, encodePwm_eq_plainFrame v, rfl⟩, fun bytes p hp => ?_⟩
  · obtain ⟨-, hd, rfl⟩ := (encodeGeneric_success_iff a k d f).1 hf
    exact ⟨hd, _, rfl, lengthByte_toNat d hd⟩
  · obtain ⟨⟨-, hlen, -⟩, rfl⟩ := decodeFrame_success bytes p hp
    exact ⟨rfl, by rw [serialize_length, hlen]⟩

/-- Settles O40: the Data of a frame and of an accepted packet is what stands between offset 4 and the last byte. -/
theorem dataField : Obligations.DataField := by
  refine ⟨fun a k d hk hd => ?_, fun bytes p hp => ?_,
    fun a k d _ hd => ⟨_, decodeFrame_plainFrame a k d hd, rfl⟩⟩
  · exact ⟨_, (encodeGeneric_success_iff a k d _).2 ⟨hk, hd, rfl⟩, by simp [plainFrame]⟩
  · obtain ⟨⟨-, hlen, -⟩, rfl⟩ := decodeFrame_success bytes p hp
    exact ⟨hlen.symm, by simp [serialize, hlen]⟩

/-- Settles O41: every frame, emitted or accepted, is a body followed by the body's checksum. -/
theorem checksumField : Obligations.ChecksumField := by
  refine ⟨fun f hf => ?_, fun bytes p hp => ?_⟩
  · obtain ⟨a, k, d, rfl⟩ := exists_plainFrame_of_emitted f hf
    rw [← frameBody_checksum, List.getLast?_concat, List.dropLast_concat, checksum_eq_xorOf]
  · obtain ⟨⟨-, -, hsum⟩, rfl⟩ := decodeFrame_success bytes p hp
    rw [serialize, List.getLast?_concat, List.dropLast_concat, ← checksum_eq_xorOf]
    exact ⟨rfl, hsum⟩

/-- Settles O44: the frame is the words of the wire command, which decode to it by O1. -/
theorem encodesEmitTheWireCommands : Obligations.EncodesEmitTheWireCommands := by
  refine ⟨fun a d s hd => ?_, fun a d s hd hshape => ?_, fun h l s => ?_, fun level s h l hbytes => ?_⟩
  · obtain ⟨t, ht, hr⟩ := exec_encodeGeneric_answers a 0x01 d s (.inl rfl) hd
    exact ⟨t, _, ht, hr, decodeOfEncodeIsIdentity (.cmdGenericA a d _) (by simp [Instr.wf, hd])⟩
  · obtain ⟨t, ht, hr⟩ := exec_encodeGeneric_answers a 0x02 d s (.inr rfl) hd
    rw [← isPwmShape_iff] at hshape
    exact ⟨t, _, ht, hr, decodeOfEncodeIsIdentity (.cmdGenericB a d _) (by simp [Instr.wf, hd, hshape])⟩
  · obtain ⟨t, ht, hr⟩ := exec_encodeGeneric_answers 0x52 0x02 [h, l] s (.inr rfl) (by simp)
    exact ⟨t, _, ht, hr, decode_plainFrame_setGreenPwm h l⟩
  · obtain ⟨t, ht, hr⟩ := exec_encodePwm_answers level s
    rw [hbytes] at hr
    exact ⟨t, _, ht, hr, decode_plainFrame_setGreenPwm h l⟩

/-- Settles O3: two bits have the four values that the operation select tests. -/
theorem opCodesSelectTheOperations : Obligations.OpCodesSelectTheOperations := by
  rintro ⟨op, level, addr, cmd, IN⟩
  have hop : ∀ x : BitVec 2, x = 0b00 ∨ x = 0b01 ∨ x = 0b10 ∨ x = 0b11 := by decide
  refine ⟨?_, ?_, ?_, ?_, hop op⟩
  · rintro rfl; rfl
  · rintro rfl; rfl
  · rintro rfl; rfl
  · rintro rfl; rfl

/-- Settles O5, by evaluation of the decoder on each word. -/
theorem writtenWordsDecode : Obligations.WrittenWordsDecode :=
  ⟨rfl, rfl, rfl, rfl, rfl, rfl, rfl, rfl, rfl⟩

/-- Settles O26: the eight codes are different, so the table of the statuses is injective. -/
theorem statusCodesAreTheTables : Obligations.StatusCodesAreTheTables := by
  refine ⟨rfl, fun x y hxy => ?_⟩
  have hmem (z : Status) : z ∈ [Status.ok, .invalidCommand, .payloadTooLarge, .tooShort, .badHeader, .lengthMismatch,
      .checksumMismatch, .ioError] := by
    cases z <;> decide
  exact List.inj_on_of_nodup_map (f := Status.code) (by decide) (hmem x) (hmem y) hxy

end Sys2Proof.Machine

end

/-! ## The checksum and the framer: the laws of the fold and the byte-serial realisation

The proofs of the family 40_framer_checksum.md. First the laws of the fold; then what CHECKSUM and the framer leave in
ACC and IDX; then every register after the deframer, which makes its tests those of `decode`; then the obligations. -/

section

namespace Sys2Proof.Machine

/-! ### The laws of the fold -/

theorem byte_zero_xor (b : Byte) : 0 ^^^ b = b := BitVec.zero_xor

theorem checksum_singleton (b : Byte) : checksum [b] = b := by
  rw [checksum_cons, checksum_nil, BitVec.xor_comm, byte_zero_xor]

/-- The fold of a sequence with a trailing byte tells whether that byte is the fold of the rest
(40_framer_checksum.md R113). -/
theorem checksum_concat_eq_zero_iff (s : List Byte) (c : Byte) : checksum (s ++ [c]) = 0 ↔ checksum s = c := by
  rw [checksum_append, checksum_singleton]
  exact BitVec.xor_eq_zero_iff

/-- The order of the bytes does not matter: the XOR of two bytes commutes (40_framer_checksum.md R114 (c)). -/
theorem checksum_perm (s t : List Byte) (h : s.Perm t) : checksum s = checksum t := by
  induction h with
  | nil => rfl
  | cons b _ ih => rw [checksum_cons, checksum_cons, ih]
  | swap b c s => simp only [checksum_cons, ← BitVec.xor_assoc, BitVec.xor_comm b c]
  | trans _ _ ih₁ ih₂ => exact ih₁.trans ih₂

/-- A bit of the fold is the parity of that bit over the bytes (40_framer_checksum.md R114 (f)). -/
theorem checksum_getLsbD (s : List Byte) (j : Nat) :
    (checksum s).getLsbD j = decide (s.countP (fun b => b.getLsbD j) % 2 = 1) := by
  induction s with
  | nil => simp
  | cons b s ih =>
    rw [checksum_cons, BitVec.getLsbD_xor, ih, List.countP_cons]
    cases b.getLsbD j with
    | false => simp
    | true =>
      rw [Bool.true_xor, ← decide_not, if_pos rfl, decide_eq_decide]
      omega

/-- Changing exactly one byte changes the fold (40_framer_checksum.md R114 (g)). -/
theorem checksum_set_ne (s : List Byte) (n : Nat) (b : Byte) (h : n < s.length) (hb : b ≠ s.getD n 0) :
    checksum (s.set n b) ≠ checksum s := by
  induction s generalizing n with
  | nil => simp at h
  | cons x s ih =>
    cases n with
    | zero =>
      rw [List.set_cons_zero, checksum_cons, checksum_cons]
      exact fun heq => hb ((BitVec.xor_left_inj _).1 heq)
    | succ n =>
      rw [List.set_cons_succ, checksum_cons, checksum_cons]
      exact fun heq => ih n (Nat.lt_of_succ_lt_succ h) hb ((BitVec.xor_right_inj _).1 heq)

/-! ### ACC and IDX after bytes have passed -/

/-- IDX after the bytes of a transaction: their number, held at 261 (10_state.md R32). -/
theorem count_from_start {α : Type} (s : List α) :
    s.foldl (fun i _ => countByte i) (0 : BitVec 9) = BitVec.ofNat 9 (min s.length 261) := by
  apply BitVec.eq_of_toNat_eq
  rw [count_bytes _ _ (by simp), BitVec.toNat_ofNat]
  have h0 : (0 : BitVec 9).toNat = 0 := rfl
  omega

/-- The registers after bytes have passed from a transaction's start. -/
theorem foldBytes_eq (s : List Byte) (w : WorkRegs) :
    foldBytes s w = { w.start with acc := checksum s, idx := BitVec.ofNat 9 (min s.length 261) } := by
  rw [foldBytes, fold_pass, start_acc, start_idx, count_from_start, byte_zero_xor]

/-- The framer's loop leaves the registers as CHECKSUM of the same bytes does. -/
theorem framerLoop_start (s : List Byte) (w : WorkRegs) :
    framerLoop s w.start = (s.map fun b => ⟨b, false⟩, foldBytes s w) := framerLoop_eq s w.start

/-- The framer emits the body and then its checksum, which is marked last (40_framer_checksum.md R116). -/
theorem framer_fst (a k : Byte) (d : List Byte) (w : WorkRegs) :
    (framer a k d w).1 = (frameBody a k d).map (fun b => ⟨b, false⟩) ++ [⟨checksum (frameBody a k d), true⟩] := by
  simp only [framer, framerLoop_start, foldBytes_eq]

/-! ### The registers after the deframer -/

theorem deframe_acc (s : List Byte) (w : WorkRegs) : (deframe s w).acc = checksum s := by
  rw [deframe, (deframe_acc_idx s w.start).1, start_acc, byte_zero_xor]

/-- LENR is the byte at offset 3, and 0x00 when IN is too short to have it. -/
theorem deframe_lenr (s : List Byte) (w : WorkRegs) : (deframe s w).lenr = s.getD 3 0 := by
  induction s using List.reverseRecOn with
  | nil => rfl
  | append_singleton s b ih =>
    have hidx : min s.length 261 = 3 ↔ s.length = 3 := by omega
    simp only [deframe_concat, deframeByte_lenr, deframe_idx, getD_concat, ih, hidx]

/-- HDR_OK says whether IN starts with the header. -/
theorem deframe_hdrOk (s : List Byte) (w : WorkRegs) : (deframe s w).hdrOk = (s.head? == some 0xAA) := by
  induction s using List.reverseRecOn with
  | nil => rfl
  | append_singleton s b ih =>
    rw [deframe_concat, deframeByte_hdrOk, deframe_idx, ih]
    cases s with
    | nil => rfl
    | cons x s => rw [if_neg (by simp)]; rfl

/-- A wire command leaves the registers as DECODE of its own words does (log 9, log 11). -/
theorem workAfter_of_encode_wire (i : Instr) (bytes : List Byte) (w : WorkRegs) (h : encode i = .wire bytes) :
    workAfter i w = deframe bytes w := by
  cases i <;> cases h <;> rfl

theorem getD_eq_ite {α : Type} (s : List α) (n : Nat) (x y : α) :
    s.getD n x = if n < s.length then s.getD n y else x := by
  by_cases h : n < s.length
  · rw [if_pos h, List.getD_eq_getElem _ _ h, List.getD_eq_getElem _ _ h]
  · rw [if_neg h, List.getD_eq_default _ _ (by omega)]

/-- Reading out BUF from offset 0 gives back the bytes that stood between the four fields and the last byte. -/
theorem deframe_data (b0 b1 b2 b3 c : Byte) (d : List Byte) (w : WorkRegs) (h : Memory.wf w.buf) (hd : d.length < 256) :
    (List.range d.length).map (Memory.read (deframe (b0 :: b1 :: b2 :: b3 :: (d ++ [c])) w).buf) = d := by
  refine List.ext_getElem (by simp) fun n hn hn' => ?_
  rw [List.getElem_map, List.getElem_range, deframe_read _ w h, if_pos (by omega)]
  exact (List.getD_append d [c] _ n hn').trans (List.getD_eq_getElem d _ hn')

/-- Behind the Data bytes BUF holds the last byte. -/
theorem deframe_trailing (b0 b1 b2 b3 c : Byte) (d : List Byte) (w : WorkRegs) (h : Memory.wf w.buf)
    (hd : d.length < 256) :
    Memory.read (deframe (b0 :: b1 :: b2 :: b3 :: (d ++ [c])) w).buf d.length = c := by
  rw [deframe_read _ w h, if_pos hd]
  simp

/-- The tests on the registers are `decode`'s on a sequence cut into its fields (`decodeFrame_fields`). -/
theorem deframeResult_fields (b0 b1 b2 b3 c : Byte) (d : List Byte) (w : WorkRegs) (h : Memory.wf w.buf) :
    deframeResult (deframe (b0 :: b1 :: b2 :: b3 :: (d ++ [c])) w) =
      if b0 ≠ 0xAA then .failure .badHeader
      else if d.length ≠ b3.toNat then .failure .lengthMismatch
      else if checksum (b0 :: b1 :: b2 :: b3 :: d) ≠ c then .failure .checksumMismatch
      else .success { header := b0, address := b1, command := b2, length := b3, data := d, checksum := c } := by
  have hidx : (deframe (b0 :: b1 :: b2 :: b3 :: (d ++ [c])) w).idx.toNat = min (5 + d.length) 261 := by
    rw [deframe_idx]; congr 1; simp; omega
  have hlenr : (deframe (b0 :: b1 :: b2 :: b3 :: (d ++ [c])) w).lenr = b3 := deframe_lenr _ w
  have hheader : (deframe (b0 :: b1 :: b2 :: b3 :: (d ++ [c])) w).hdrOk = false ↔ ¬b0 = 0xAA := by
    simp [deframe_hdrOk]
  have hlen : ¬min (5 + d.length) 261 = 5 + b3.toNat ↔ ¬d.length = b3.toNat := by omega
  have hsum : checksum (b0 :: b1 :: b2 :: b3 :: (d ++ [c])) = 0 ↔ checksum (b0 :: b1 :: b2 :: b3 :: d) = c :=
    checksum_concat_eq_zero_iff (b0 :: b1 :: b2 :: b3 :: d) c
  simp only [deframeResult, hidx, hlenr, hheader, deframe_acc, deframe_adr, deframe_cmdr, ne_eq, hlen, hsum]
  rw [if_neg (by omega)]
  -- The tests are now the same on both sides: only the packet is left to compare.
  split_ifs with h0 hd
  · rw [h0, ← hd, deframe_data _ _ _ _ _ _ w h (by omega), deframe_trailing _ _ _ _ _ _ w h (by omega)]
    rfl
  · rfl
  · rfl
  · rfl

/-! ### The obligations -/

/-- Settles O51: fewer than five bytes fail the first test of both, and on more the tests are compared field by field. -/
theorem streamingDeframerIsDecode : Obligations.StreamingDeframerIsDecode := by
  intro bytes w h
  by_cases h5 : bytes.length < 5
  · have hidx : (deframe bytes w).idx.toNat < 5 := by rw [deframe_idx]; omega
    rw [decodeFrame_eq, if_pos h5, deframeResult]
    exact congrArg some (if_pos hidx).symm
  · obtain ⟨b0, b1, b2, b3, d, c, rfl⟩ := exists_fields_of_length bytes (by omega)
    rw [decodeFrame_fields, deframeResult_fields _ _ _ _ _ _ w h]

/-- Settles O23: by `exec_eq` the registers are those the deframer leaves. -/
theorem receivingLatchesTheFrame : Obligations.ReceivingLatchesTheFrame := by
  intro i bytes s h hi
  have hwork : workAfter i s.work = deframe bytes s.work := by
    obtain rfl | ⟨-, henc⟩ := hi
    · rfl
    · exact workAfter_of_encode_wire i bytes s.work henc
  obtain ⟨r, -, hexec⟩ := exec_eq i s
  rw [hwork] at hexec
  refine ⟨_, hexec, rfl, (deframe_acc _ _).trans (checksum_eq_xorOf _), deframe_idx _ _, deframe_hdrOk _ _,
    deframe_adr _ _, deframe_cmdr _ _, deframe_lenr _ _, fun a => (deframe_read bytes s.work h a).trans ?_⟩
  rw [getD_eq_ite bytes (a + 4) (Memory.read s.work.buf a) 0, ite_and]

/-- Settles O50: the framer's loop emits the body and leaves its fold in ACC. -/
theorem streamingFramerBuildsTheFrame : Obligations.StreamingFramerBuildsTheFrame := by
  intro a k d w hd
  refine ⟨?_, ?_, fun n hn => ?_⟩
  · rw [buildFrame_eq a k d hd, framer_fst]
    simp [Function.comp_def]
  · rw [framer_fst, List.map_append, List.map_map, ← frameBody_length a k d]
    congr 1
    exact List.map_const
  · have hlen : ((frameBody a k d).take n).length = n := by rw [List.length_take, frameBody_length]; omega
    rw [framerLoop_start, foldBytes_eq, hlen]
    exact ⟨rfl, by rw [BitVec.toNat_ofNat]; omega⟩

/-- Settles O34: each law is one of the lemmas about the fold. -/
theorem checksumLaws : Obligations.ChecksumLaws :=
  ⟨checksum_append, checksum_perm, checksum_append_self,
    fun s t => by rw [checksum_append, checksum_cons, byte_zero_xor, ← checksum_append],
    fun s j _ => checksum_getLsbD s j, checksum_set_ne⟩

/-- Settles O35: an emitted frame is a body followed by the body's fold. -/
theorem verifyMeansTheWholeFoldsToZero : Obligations.VerifyMeansTheWholeFoldsToZero := by
  refine ⟨fun s c => ⟨verifyChecksum_append s c, (checksum_concat_eq_zero_iff s c).symm⟩, fun f hf => ?_⟩
  obtain ⟨a, k, d, rfl⟩ := exists_plainFrame_of_emitted f hf
  rw [← frameBody_checksum, verifyChecksum_append, beq_self_eq_true]
  exact ⟨checksum_append_self _, rfl⟩

/-- Settles O19: the response is the fold, and the bytes have passed through ACC and IDX. -/
theorem checksumResult : Obligations.ChecksumResult := by
  intro bytes s
  obtain ⟨r, hr, hexec⟩ := exec_eq (.checksum bytes) s
  obtain rfl := Option.some.inj hr
  rw [hexec, workAfter, foldBytes_eq, checksum_eq_xorOf]
  rfl

/-- Settles O36: the invariant of a packet makes its four fields and data the body of a frame. -/
theorem serializeIsBuildFrame : Obligations.SerializeIsBuildFrame := by
  intro p hp
  obtain ⟨hheader, hlen, hsum⟩ := hp
  have hbody : frameBody p.address p.command p.data = [p.header, p.address, p.command, p.length] ++ p.data := by
    rw [frameBody, ← hheader, ← hlen, BitVec.ofNat_toNat, BitVec.setWidth_eq]
  rw [buildFrame_eq _ _ _ (by omega), hbody, ← hsum, serialize]

end Sys2Proof.Machine

end

/-! ## The PWM level: saturation, its two bytes and its frame

The proofs of the family 41_pwm_clamp_serialize.md. First the laws of `clamp`, all from its closed form; then the frame of a
level, which is told by the clamped level alone and which tells it back in its payload; then the obligations. -/

section

namespace Sys2Proof.Machine

/-! ### The laws of `clamp` -/

/-- The closed form (41_pwm_clamp_serialize.md R133 (e)), in the operations that `omega` reads. -/
theorem clamp_eq_max_min (v : Int) : clamp v = max 0 (min v 60000) := clamp_eq_saturated v

theorem clamp_of_nonpos (v : Int) (h : v ≤ 0) : clamp v = 0 := by
  rw [clamp_eq_max_min]; omega

theorem clamp_of_ge (v : Int) (h : 60000 ≤ v) : clamp v = 60000 := by
  rw [clamp_eq_max_min]; omega

theorem clamp_of_mem (v : Int) (hmin : 0 ≤ v) (hmax : v ≤ 60000) : clamp v = v := by
  rw [clamp_eq_max_min]; omega

/-- Saturating again changes nothing, since the first result is in the range. -/
theorem clamp_clamp (v : Int) : clamp (clamp v) = clamp v :=
  clamp_of_mem _ (clamp_bounds v).1 (clamp_bounds v).2

theorem clamp_mono {v w : Int} (h : v ≤ w) : clamp v ≤ clamp w := by
  rw [clamp_eq_max_min, clamp_eq_max_min]; omega

/-- A port of 18 bits or more reaches past both bounds: 2 ^ 17 is more than 60000 (00_scope.md R9). -/
theorem levelPort_reaches (n : Nat) (h : 18 ≤ n) :
    sext (BitVec.intMin n) ≤ 0 ∧ 60000 ≤ sext (BitVec.intMax n) := by
  have hpow : (2 : Int) ^ 17 ≤ 2 ^ (n - 1) := pow_le_pow_right₀ (by decide) (by omega)
  rw [sext, sext, BitVec.toInt_intMin, BitVec.toInt_intMax]
  exact ⟨neg_nonpos.2 (Int.natCast_nonneg _), by omega⟩

/-! ### The frame of a level -/

/-- The frame that `encode_pwm` makes of a level, by the spec's formula. -/
def levelFrame (v : Int) : List Byte := plainFrame 0x52 0x02 (pwmData v)

theorem encodePwm_eq_levelFrame (v : Int) : encodePwm v = some (levelFrame v) := encodePwm_eq_plainFrame v

/-- The bytes at offsets 4 and 5, read big-endian, are the clamped level (41_pwm_clamp_serialize.md R135). -/
theorem levelFrame_payload (v : Int) :
    256 * (((levelFrame v).getD 4 0).toNat : Int) + ((levelFrame v).getD 5 0).toNat = clamp v := by
  have hhigh : (levelFrame v).getD 4 0 = (clampedLevel v).extractLsb' 8 8 := rfl
  have hlow : (levelFrame v).getD 5 0 = (clampedLevel v).extractLsb' 0 8 := rfl
  rw [hhigh, hlow, highByte_toNat, lowByte_toNat, ← clampedLevel_toNat]
  omega

/-- Levels have one frame exactly when they saturate to one value: the frame is made of the clamped level, and its payload
gives the clamped level back. -/
theorem levelFrame_eq_iff (v w : Int) : levelFrame v = levelFrame w ↔ clamp v = clamp w := by
  constructor
  · intro h
    rw [← levelFrame_payload v, ← levelFrame_payload w, h]
  · intro h
    rw [levelFrame, levelFrame, pwmData, pwmData, clampedLevel, clampedLevel, h]

theorem encodePwm_eq_iff (v w : Int) : encodePwm v = encodePwm w ↔ clamp v = clamp w := by
  rw [encodePwm_eq_levelFrame, encodePwm_eq_levelFrame, Option.some_inj, levelFrame_eq_iff]

/-- The frames of the levels from 0 to 60000, in the order of the levels. -/
def levelFrames : List (List Byte) := (List.range 60001).map fun n : Nat => levelFrame n

theorem levelFrames_length : levelFrames.length = 60001 := by
  rw [levelFrames, List.length_map, List.length_range]

/-- Inside the range no two levels saturate to one value. -/
theorem levelFrames_nodup : levelFrames.Nodup := by
  refine List.nodup_range.map_on fun m hm n hn heq => ?_
  rw [List.mem_range] at hm hn
  rw [levelFrame_eq_iff, clamp_of_mem _ (by omega) (by omega), clamp_of_mem _ (by omega) (by omega)] at heq
  exact Int.ofNat_inj.1 heq

/-- Every level has the frame of its clamped level, which is in the range. -/
theorem mem_levelFrames_iff (f : List Byte) : f ∈ levelFrames ↔ ∃ v : Int, encodePwm v = some f := by
  simp only [levelFrames, List.mem_map, List.mem_range, encodePwm_eq_levelFrame, Option.some_inj]
  constructor
  · rintro ⟨n, -, hn⟩
    exact ⟨n, hn⟩
  · rintro ⟨v, rfl⟩
    obtain ⟨hmin, hmax⟩ := clamp_bounds v
    refine ⟨(clamp v).toNat, by omega, (levelFrame_eq_iff _ _).2 ?_⟩
    rw [Int.toNat_of_nonneg hmin, clamp_clamp]

/-- The frame and its checksum byte, written out for two data bytes (30_encoding.md R88). -/
theorem plainFrame_setGreenPwm (h l : Byte) :
    plainFrame 0x52 0x02 [h, l] = [0xAA, 0x52, 0x02, 0x02, h, l, 0xF8 ^^^ h ^^^ l] := by
  rw [plainFrame_eq_wireBytes, plainPacket_setGreenPwm_checksum]; rfl

/-! ### The obligations -/

/-- Settles O17: the frame is the spec's formula on the level's two bytes, and the framer leaves the fold of the six bytes
before the checksum in ACC. -/
theorem encodePwmResult : Obligations.EncodePwmResult := by
  intro level s hi lo hbytes
  have hdata : pwmData (sext level) = [hi, lo] := (pwmData_eq_levelBytes _).trans hbytes
  have hsum : checksum (frameBody 0x52 0x02 [hi, lo]) = 0xF8 ^^^ hi ^^^ lo := by
    rw [checksum_eq_xorOf, xorOf_frameBody, plainPacket_setGreenPwm_checksum]
  rw [exec_encodePwm, execEncodePwm_eq, hdata, frameBody_checksum, plainFrame_setGreenPwm,
    framer_work _ _ _ _ (by simp), hsum]
  rfl

/-- Settles O32: the frame is that of Address 0x52, Command 0x02 and two data bytes, which `decode` accepts. -/
theorem pwmPayloadLaw : Obligations.PwmPayloadLaw := fun v =>
  ⟨levelFrame v, plainPacket 0x52 0x02 (pwmData v), encodePwm_eq_levelFrame v, rfl, rfl, levelFrame_payload v,
    decodeFrame_plainFrame _ _ _ (by simp), rfl, rfl, rfl, rfl⟩

/-- Settles O33: each clause compares clamped levels, by `encodePwm_eq_iff`; the list is that of the levels in the range. -/
theorem pwmSaturationLaw : Obligations.PwmSaturationLaw := by
  refine ⟨fun v hv => ?_, fun v hv => ?_, fun v w hv hvw hw => ?_,
    levelFrames, levelFrames_length, levelFrames_nodup, mem_levelFrames_iff⟩
  · rw [encodePwm_eq_iff, clamp_of_ge v hv, clamp_of_ge 60000 le_rfl]
  · rw [encodePwm_eq_iff, clamp_of_nonpos v hv, clamp_of_nonpos 0 le_rfl]
  · rw [ne_eq, encodePwm_eq_iff, clamp_of_mem v hv (by omega), clamp_of_mem w (by omega) hw]
    exact hvw.ne

/-- Settles O27: the three branches of `clamp`. -/
theorem clampSaturates : Obligations.ClampSaturates := fun v =>
  ⟨fun h => clamp_of_nonpos v h.le, fun h => clamp_of_ge v h.le, clamp_of_mem v⟩

/-- Settles O28: each law is one of the lemmas about `clamp`, and a port of 18 bits reaches past both bounds. -/
theorem clampLaws : Obligations.ClampLaws := by
  refine ⟨fun v w => ⟨clamp_bounds v, clamp_of_mem v, clamp_clamp v, clamp_mono, clamp_eq_max_min v⟩, fun n hn => ?_⟩
  obtain ⟨hmin, hmax⟩ := levelPort_reaches n hn
  exact ⟨clamp_of_nonpos _ hmin, clamp_of_ge _ hmax⟩

/-- Settles O29: the two bytes are the quotient and the remainder by 256, and 60000 is 0xEA60. -/
theorem splitIsBigEndian : Obligations.SplitIsBigEndian := by
  intro c
  have hhigh := highByte_toNat c
  have hlow := lowByte_toNat c
  exact ⟨_, _, rfl, hhigh, hlow, by omega, fun hc => ⟨by omega, fun _ => by omega⟩⟩

/-- Settles O31: both encodes give the frame of the spec's formula, and two data bytes are never too many. -/
theorem pwmIsAGenericCommand : Obligations.PwmIsAGenericCommand := fun v =>
  ⟨levelFrame v, encodePwm_eq_levelFrame v, (encodeGeneric_success_iff _ _ _ _).2 ⟨.inr rfl, by simp [split16], rfl⟩⟩

end Sys2Proof.Machine

end

/-! ## Generic frames: encode, decode, the round trips and single-byte damage

The proofs of the family 42_generic_encode_decode.md. First the tests of `decode` on a whole sequence, one lemma per outcome;
then the frame that an accepted packet serializes to, which `encode_generic` makes again; then one changed byte of an
accepted sequence; then the obligations. -/

section

namespace Sys2Proof.Machine

/-! ### The tests of `decode`, one by one -/

theorem fields_length (b0 b1 b2 b3 c : Byte) (d : List Byte) :
    (b0 :: b1 :: b2 :: b3 :: (d ++ [c])).length = 5 + d.length := by
  simp; omega

theorem decodeFrame_tooShort (IN : List Byte) (h : IN.length < 5) : decodeFrame IN = some (.failure .tooShort) := by
  rw [decodeFrame_eq, if_pos h]

theorem decodeFrame_badHeader (IN : List Byte) (h5 : 5 ≤ IN.length) (h0 : IN.getD 0 0 ≠ 0xAA) :
    decodeFrame IN = some (.failure .badHeader) := by
  rw [decodeFrame_eq, if_neg (by omega), if_pos h0]

theorem decodeFrame_lengthMismatch (IN : List Byte) (h5 : 5 ≤ IN.length) (h0 : IN.getD 0 0 = 0xAA)
    (h3 : IN.length ≠ 5 + (IN.getD 3 0).toNat) : decodeFrame IN = some (.failure .lengthMismatch) := by
  rw [decodeFrame_eq, if_neg (by omega), if_neg (not_not.2 h0), if_pos h3]

/-- With the header and the length right, a fold that is not zero is a wrong checksum (40_framer_checksum.md R113). -/
theorem decodeFrame_checksumMismatch (IN : List Byte) (h5 : 5 ≤ IN.length) (h0 : IN.getD 0 0 = 0xAA)
    (h3 : IN.length = 5 + (IN.getD 3 0).toNat) (hsum : checksum IN ≠ 0) :
    decodeFrame IN = some (.failure .checksumMismatch) := by
  obtain ⟨b0, b1, b2, b3, d, c, rfl⟩ := exists_fields_of_length IN h5
  obtain rfl : b0 = 0xAA := h0
  have hd : d.length = b3.toNat := Nat.add_left_cancel ((fields_length ..).symm.trans h3)
  have hc : checksum (0xAA :: b1 :: b2 :: b3 :: d) ≠ c :=
    mt (checksum_concat_eq_zero_iff (0xAA :: b1 :: b2 :: b3 :: d) c).2 hsum
  rw [decodeFrame_fields, if_neg (not_not.2 rfl), if_neg (not_not.2 hd), if_pos hc]

/-- What `decode` accepts has passed its four tests. -/
theorem tests_of_decodeFrame_success (IN : List Byte) (p : Packet) (h : decodeFrame IN = some (.success p)) :
    IN.getD 0 0 = 0xAA ∧ IN.length = 5 + (IN.getD 3 0).toNat ∧ checksum IN = 0 := by
  obtain ⟨⟨hheader, hlen, hsum⟩, rfl⟩ := decodeFrame_success IN p h
  refine ⟨hheader, (serialize_length p).trans ?_, ?_⟩
  · rw [← hlen]; rfl
  · rw [serialize, hsum, checksum_append_self]

/-- `decode` on every sequence, with the covered bytes and the last byte as the spec names them. -/
theorem decodeFrame_eq_xorOf (IN : List Byte) :
    decodeFrame IN = some
      (if IN.length < 5 then .failure .tooShort
       else if IN.getD 0 0 ≠ 0xAA then .failure .badHeader
       else if IN.length ≠ 5 + (IN.getD 3 0).toNat then .failure .lengthMismatch
       else if xorOf IN.dropLast ≠ IN.getLastD 0 then .failure .checksumMismatch
       else .success
        { header := 0xAA, address := IN.getD 1 0, command := IN.getD 2 0, length := IN.getD 3 0,
          data := (IN.drop 4).dropLast, checksum := IN.getLastD 0 }) := by
  by_cases h5 : IN.length < 5
  · rw [decodeFrame_tooShort IN h5, if_pos h5]
  obtain ⟨b0, b1, b2, b3, d, c, rfl⟩ := exists_fields_of_length IN (by omega)
  have hcovered : (b0 :: b1 :: b2 :: b3 :: (d ++ [c])).dropLast = b0 :: b1 :: b2 :: b3 :: d :=
    List.dropLast_concat (l₁ := b0 :: b1 :: b2 :: b3 :: d)
  have hlast : (b0 :: b1 :: b2 :: b3 :: (d ++ [c])).getLastD 0 = c :=
    List.getLastD_concat (l := b0 :: b1 :: b2 :: b3 :: d)
  have hdata : ((b0 :: b1 :: b2 :: b3 :: (d ++ [c])).drop 4).dropLast = d := List.dropLast_concat
  have hlen : (b0 :: b1 :: b2 :: b3 :: (d ++ [c])).length ≠ 5 + b3.toNat ↔ d.length ≠ b3.toNat := by
    rw [fields_length]; omega
  rw [decodeFrame_fields, if_neg h5, hcovered, hlast, hdata, checksum_eq_xorOf]
  simp only [List.getD_cons_zero, List.getD_cons_succ, hlen]
  by_cases h0 : b0 = 0xAA
  · rw [h0]
  · rw [if_pos h0, if_pos h0]

/-- DECODE answers with `decode`'s result, from every state. -/
theorem exec_decode_answers (IN : List Byte) (r : Result Packet DecodeError) (s : State) (h : decodeFrame IN = some r) :
    ∃ t, exec (.decode IN) s = .next t ∧ t.presented = s.presented ∧ t.response = some (.packet r) :=
  exec_answers (.decode IN) s (.packet r) (by rw [respond, h]; rfl)

/-! ### `encode_generic` and the frame of a packet -/

theorem encodeGeneric_invalidCommand (a k : Byte) (d : List Byte) (hA : k ≠ 0x01) (hB : k ≠ 0x02) :
    encodeGeneric a k d = some (.failure .invalidCommand) := by
  rw [encodeGeneric_eq, if_pos ⟨hA, hB⟩]

theorem plainFrame_length (a k : Byte) (d : List Byte) : (plainFrame a k d).length = 5 + d.length := by
  simp [plainFrame]; omega

/-- A frame tells its fields, since `decode` gives them back (42_generic_encode_decode.md R157). -/
theorem plainFrame_inj {a k a' k' : Byte} {d d' : List Byte} (hd : d.length ≤ 255) (hd' : d'.length ≤ 255)
    (h : plainFrame a k d = plainFrame a' k' d') : a = a' ∧ k = k' ∧ d = d' := by
  have hdec : decodeFrame (plainFrame a k d) = some (.success (plainPacket a' k' d')) := by
    rw [h, decodeFrame_plainFrame a' k' d' hd']
  have hp : plainPacket a k d = plainPacket a' k' d' :=
    Result.success.inj (Option.some.inj ((decodeFrame_plainFrame a k d hd).symm.trans hdec))
  exact ⟨congrArg Packet.address hp, congrArg Packet.command hp, congrArg Packet.data hp⟩

theorem data_length_le_of_wf (p : Packet) (h : p.wf) : p.data.length ≤ 255 := by
  obtain ⟨-, hlen, -⟩ := h
  omega

/-- A well-formed packet serializes to the frame of its fields (40_framer_checksum.md R112). -/
theorem serialize_eq_plainFrame (p : Packet) (h : p.wf) : serialize p = plainFrame p.address p.command p.data := by
  have hbuild := serializeIsBuildFrame p h
  rw [buildFrame_eq _ _ _ (data_length_le_of_wf p h), frameBody_checksum] at hbuild
  exact (Option.some.inj hbuild).symm

/-- Both encodes emit only frames that `decode` accepts. -/
theorem decodeFrame_of_emitted (f : List Byte) (h : Emitted f) : ∃ p, decodeFrame f = some (.success p) := by
  obtain ⟨v, hv⟩ | ⟨a, k, d, hf⟩ := h
  · rw [encodePwm_eq_plainFrame] at hv
    cases hv
    exact ⟨_, decodeFrame_plainFrame _ _ _ (by simp)⟩
  · obtain ⟨-, hd, rfl⟩ := (encodeGeneric_success_iff a k d f).1 hf
    exact ⟨_, decodeFrame_plainFrame a k d hd⟩

/-! ### One changed byte -/

theorem getD_set {α : Type} (s : List α) (n j : Nat) (b x : α) (h : n < s.length) :
    (s.set n b).getD j x = if n = j then b else s.getD j x := by
  rw [List.getD_eq_getElem?_getD, List.getD_eq_getElem?_getD]
  by_cases hj : n = j
  · subst hj
    rw [if_pos rfl, List.getElem?_set_self h, Option.getD_some]
  · rw [if_neg hj, List.getElem?_set_ne hj]

/-- One changed byte of an accepted sequence fails the first test that reads it; a byte which only the checksum covers
changes the fold (40_framer_checksum.md R114 (g), 90_conflicts.md C2). -/
theorem decodeFrame_set (f : List Byte) (p : Packet) (n : Nat) (b : Byte) (hf : decodeFrame f = some (.success p))
    (hn : n < f.length) (hb : b ≠ f.getD n 0) :
    decodeFrame (f.set n b) = some (.failure
      (if n = 0 then .badHeader else if n = 3 then .lengthMismatch else .checksumMismatch)) := by
  obtain ⟨hheader, hlen, hsum⟩ := tests_of_decodeFrame_success f p hf
  have h5 : 5 ≤ (f.set n b).length := by rw [List.length_set]; omega
  by_cases h0 : n = 0
  · subst h0
    rw [if_pos rfl]
    refine decodeFrame_badHeader _ h5 ?_
    rwa [getD_set _ _ _ _ _ hn, if_pos rfl, ← hheader]
  have hheader' : (f.set n b).getD 0 0 = 0xAA := by rw [getD_set _ _ _ _ _ hn, if_neg h0, hheader]
  rw [if_neg h0]
  by_cases h3 : n = 3
  · subst h3
    rw [if_pos rfl]
    refine decodeFrame_lengthMismatch _ h5 hheader' ?_
    rw [List.length_set, getD_set _ _ _ _ _ hn, if_pos rfl, hlen]
    exact fun heq => hb (BitVec.eq_of_toNat_eq (Nat.add_left_cancel heq).symm)
  · rw [if_neg h3]
    refine decodeFrame_checksumMismatch _ h5 hheader' ?_ ?_
    · rwa [List.length_set, getD_set _ _ _ _ _ hn, if_neg h3]
    · rw [← hsum]
      exact checksum_set_ne f n b hn hb

/-! ### The obligations -/

/-- Settles O42: ENCODE_GENERIC answers the frame of the fields, and `decode` accepts that frame with its packet. -/
theorem encodeThenDecodeRoundTrips : Obligations.EncodeThenDecodeRoundTrips := by
  intro a k d s u hk hd
  obtain ⟨t, ht, hframe⟩ := exec_encodeGeneric_answers a k d s hk hd
  obtain ⟨v, hv, -, hpacket⟩ := exec_decode_answers _ _ u (decodeFrame_plainFrame a k d hd)
  exact ⟨t, v, _, ht, hframe, hv, hpacket⟩

/-- Settles O18: the three branches of ENCODE_GENERIC; on success the framer leaves the fold of the body in ACC. -/
theorem encodeGenericResult : Obligations.EncodeGenericResult := by
  intro a k d s
  rw [exec_encodeGeneric, execEncodeGeneric_eq]
  refine ⟨fun hA hB => ?_, fun hk hd => ?_, fun hk hd => ?_⟩
  · rw [if_pos ⟨hA, hB⟩]; rfl
  · rw [if_neg (by tauto), if_pos hd]; rfl
  · rw [if_neg (by tauto), if_neg (by omega), frameBody_checksum, framer_work a k d _ hd, checksum_eq_xorOf,
      xorOf_frameBody]
    rfl

/-- Settles O20: DECODE answers `decode`'s result, in the spec's terms. -/
theorem decodeResult : Obligations.DecodeResult :=
  fun bytes s => exec_decode_answers bytes _ s (decodeFrame_eq_xorOf bytes)

/-- Settles O21: a wire command is received as DECODE of its words (log 9), of which only the checksum is left to test. -/
theorem genericWireCommandResult : Obligations.GenericWireCommandResult := fun a d ck s hd =>
  ⟨exec_decode_answers _ _ s (decodeFrame_wireBytes a 0x01 ck d hd),
    exec_decode_answers _ _ s (decodeFrame_wireBytes a 0x02 ck d hd)⟩

/-- Settles O37: success gives the frame of the fields, which tells them. -/
theorem genericFrameShape : Obligations.GenericFrameShape := by
  refine ⟨fun a k d f hf => ?_, fun a k d a' k' d' f hf hf' => ?_⟩
  · obtain ⟨hk, hd, rfl⟩ := (encodeGeneric_success_iff a k d f).1 hf
    exact ⟨rfl, plainFrame_length a k d, hk, hd⟩
  · obtain ⟨-, hd, hframe⟩ := (encodeGeneric_success_iff a k d f).1 hf
    obtain ⟨-, hd', hframe'⟩ := (encodeGeneric_success_iff a' k' d' f).1 hf'
    exact plainFrame_inj hd hd' (hframe.symm.trans hframe')

/-- Settles O43: an accepted packet is well formed, and its serialization is the frame that `encode_generic` makes. -/
theorem decodeThenEncodeRoundTrips : Obligations.DecodeThenEncodeRoundTrips := by
  intro bytes p h
  obtain ⟨hwf, rfl⟩ := decodeFrame_success bytes p h
  exact ⟨hwf, rfl,
    fun hk => (encodeGeneric_success_iff _ _ _ _).2 ⟨hk, data_length_le_of_wf p hwf, serialize_eq_plainFrame p hwf⟩,
    encodeGeneric_invalidCommand _ _ _⟩

/-- Settles O45: with five bytes or more the header is the first test. -/
theorem wrongHeaderIsBadHeader : Obligations.WrongHeaderIsBadHeader := by
  intro b s h5 h0
  have hheader : b.getD 0 0 ≠ 0xAA := fun heq => h0 (heq ▸ memReadByte_of_lt b 0 (by omega))
  obtain ⟨t, ht, -, hr⟩ := exec_decode_answers b _ s (decodeFrame_badHeader b h5 hheader)
  exact ⟨t, ht, hr⟩

/-- Settles O46: an emitted frame is accepted, and one changed byte of an accepted sequence is found. -/
theorem singleByteChangesAreRejected : Obligations.SingleByteChangesAreRejected := by
  intro f n b hf hn hb
  obtain ⟨p, hp⟩ := decodeFrame_of_emitted f hf
  exact decodeFrame_set f p n b hp hn fun heq => hb (heq ▸ memReadByte_of_lt f n hn)

/-- Settles O49: `decode` accepts the frame of any fields, and `encode_generic` tests the command alone, no level. -/
theorem decodeAcceptsEveryCommand : Obligations.DecodeAcceptsEveryCommand :=
  ⟨fun a k d hd => ⟨decodeFrame_plainFrame a k d hd, encodeGeneric_invalidCommand a k d⟩,
    (encodeGeneric_success_iff _ _ _ _).2 ⟨.inr rfl, by simp, rfl⟩⟩

/-- Settles O9: the request record that a `CommandRequest` becomes decodes to the operation. -/
theorem commandRequestsDispatch : Obligations.CommandRequestsDispatch := fun s rest _ _ =>
  ⟨fun _ hp => stepRunsTheDecodedInstruction s _ rest _ hp rfl,
    fun _ hp => stepRunsTheDecodedInstruction s _ rest _ hp rfl⟩

end Sys2Proof.Machine

end

/-! ## Exceptions: the statuses of each operation, and what an error delivers

The proofs of the family 60_exceptions.md. First what a response of each kind can have as its status, and what it carries
when the status is an error; then the status an instruction returns, which `respond` alone decides; then the obligations. -/

section

namespace Sys2Proof.Machine

/-! ### The statuses a response can have -/

/-- A response of the encodes has one of three statuses (60_exceptions.md R180). -/
theorem status_bytes_cases (r : Result (List Byte) EncodeError) :
    (Response.bytes r).status = .ok ∨ (Response.bytes r).status = .invalidCommand ∨
      (Response.bytes r).status = .payloadTooLarge := by
  cases r with
  | success f => exact .inl rfl
  | failure e =>
    cases e with
    | invalidCommand => exact .inr (.inl rfl)
    | payloadTooLarge => exact .inr (.inr rfl)

/-- A response of DECODE has one of five statuses (60_exceptions.md R180). -/
theorem status_packet_cases (r : Result Packet DecodeError) :
    (Response.packet r).status = .ok ∨ (Response.packet r).status = .tooShort ∨
      (Response.packet r).status = .badHeader ∨ (Response.packet r).status = .lengthMismatch ∨
      (Response.packet r).status = .checksumMismatch := by
  cases r with
  | success p => exact .inl rfl
  | failure e =>
    cases e with
    | tooShort => exact .inr (.inl rfl)
    | badHeader => exact .inr (.inr (.inl rfl))
    | lengthMismatch => exact .inr (.inr (.inr (.inl rfl)))
    | checksumMismatch => exact .inr (.inr (.inr (.inr rfl)))

/-- IoError is the transport's: no response of the block has it (60_exceptions.md R189). -/
theorem status_ne_ioError (r : Response) : r.status ≠ .ioError := by
  cases r with
  | bytes r => obtain h | h | h := status_bytes_cases r <;> rw [h] <;> decide
  | byte c => exact Status.noConfusion
  | packet r => obtain h | h | h | h | h := status_packet_cases r <;> rw [h] <;> decide

/-- A response whose status is an error carries no frame, no checksum and no packet (10_state.md R24). -/
theorem carries_nothing_of_status_ne_ok (r : Response) (h : r.status ≠ .ok) :
    r.out = [] ∧ r.ck = none ∧ r.pkt = none := by
  cases r with
  | bytes r =>
    cases r with
    | success f => exact absurd rfl h
    | failure e => exact ⟨rfl, rfl, rfl⟩
  | byte c => exact absurd rfl h
  | packet r =>
    cases r with
    | success p => exact absurd rfl h
    | failure e => exact ⟨rfl, rfl, rfl⟩

/-! ### The status an instruction returns -/

/-- From every state an instruction returns the status of `respond`'s answer, and no other. -/
theorem returns_iff_of_respond {i : Instr} {r : Response} (h : respond i = some r) (s : State) (x : Status) :
    Returns i s x ↔ r.status = x := by
  obtain ⟨t, ht, -, hr⟩ := exec_answers i s r h
  constructor
  · rintro ⟨t', r', ht', hr', hx⟩
    cases ht.symm.trans ht'
    cases hr.symm.trans hr'
    exact hx
  · exact fun hx => ⟨t, r, ht, hr, hx⟩

theorem returns_encodePwm_iff (level : Level) (s : State) (x : Status) : Returns (.encodePwm level) s x ↔ x = .ok :=
  (returns_iff_of_respond (by rw [respond, encodePwm_eq]; rfl) s x).trans eq_comm

theorem returns_checksum_iff (bytes : List Byte) (s : State) (x : Status) : Returns (.checksum bytes) s x ↔ x = .ok :=
  (returns_iff_of_respond rfl s x).trans eq_comm

theorem returns_encodeGeneric_iff {a k : Byte} {d : List Byte} {r : Result (List Byte) EncodeError}
    (h : encodeGeneric a k d = some r) (s : State) (x : Status) :
    Returns (.encodeGeneric a k d) s x ↔ (Response.bytes r).status = x :=
  returns_iff_of_respond (by rw [respond, h]; rfl) s x

theorem returns_decode_iff {bytes : List Byte} {r : Result Packet DecodeError} (h : decodeFrame bytes = some r)
    (s : State) (x : Status) : Returns (.decode bytes) s x ↔ (Response.packet r).status = x :=
  returns_iff_of_respond (by rw [respond, h]; rfl) s x

/-- The length is tested after the command (42_generic_encode_decode.md R150). -/
theorem encodeGeneric_payloadTooLarge (a k : Byte) (d : List Byte) (hk : k = 0x01 ∨ k = 0x02) (hd : 255 < d.length) :
    encodeGeneric a k d = some (.failure .payloadTooLarge) := by
  rw [encodeGeneric_eq, if_neg (by tauto), if_pos hd]

/-- ENCODE_GENERIC returns its three statuses, each on some operands, and no other (60_exceptions.md R181). -/
theorem exists_returns_encodeGeneric_iff (s : State) (x : Status) :
    (∃ a k d, Returns (.encodeGeneric a k d) s x) ↔ x = .ok ∨ x = .invalidCommand ∨ x = .payloadTooLarge := by
  constructor
  · rintro ⟨a, k, d, h⟩
    rw [returns_encodeGeneric_iff (encodeGeneric_eq a k d)] at h
    exact h ▸ status_bytes_cases _
  · rintro (rfl | rfl | rfl)
    · have hok := (encodeGeneric_success_iff 0x00 0x01 [] _).2 ⟨.inl rfl, by simp, rfl⟩
      exact ⟨_, _, _, (returns_encodeGeneric_iff hok s _).2 rfl⟩
    · have hcommand := encodeGeneric_invalidCommand 0x00 0x03 [] (by decide) (by decide)
      exact ⟨_, _, _, (returns_encodeGeneric_iff hcommand s _).2 rfl⟩
    · have hlarge := encodeGeneric_payloadTooLarge 0x00 0x01 (List.replicate 256 0x00) (.inl rfl)
        (by rw [List.length_replicate]; omega)
      exact ⟨_, _, _, (returns_encodeGeneric_iff hlarge s _).2 rfl⟩

/-- DECODE returns its five statuses, each on some input, and no other (60_exceptions.md R181). -/
theorem exists_returns_decode_iff (s : State) (x : Status) :
    (∃ bytes, Returns (.decode bytes) s x) ↔
      x = .ok ∨ x = .tooShort ∨ x = .badHeader ∨ x = .lengthMismatch ∨ x = .checksumMismatch := by
  constructor
  · rintro ⟨bytes, h⟩
    rw [returns_decode_iff (decodeFrame_eq bytes)] at h
    exact h ▸ status_packet_cases _
  · rintro (rfl | rfl | rfl | rfl | rfl)
    · have hok := decodeFrame_plainFrame 0x00 0x01 [] (by simp)
      exact ⟨_, (returns_decode_iff hok s _).2 rfl⟩
    · have hshort := decodeFrame_tooShort [] (by simp)
      exact ⟨_, (returns_decode_iff hshort s _).2 rfl⟩
    · have hheader := decodeFrame_badHeader [0x00, 0x00, 0x00, 0x00, 0x00] (by simp) (by decide)
      exact ⟨_, (returns_decode_iff hheader s _).2 rfl⟩
    · have hlength := decodeFrame_lengthMismatch [0xAA, 0x00, 0x00, 0x01, 0x00] (by simp) rfl (by decide)
      exact ⟨_, (returns_decode_iff hlength s _).2 rfl⟩
    · have hsum := decodeFrame_checksumMismatch [0xAA, 0x00, 0x00, 0x00, 0x00] (by simp) rfl rfl (by decide)
      exact ⟨_, (returns_decode_iff hsum s _).2 rfl⟩

/-! ### Wire bytes that are no wire command -/

theorem take_wire_of_decode_error (bytes : List Byte) (e : Reject) (s : State)
    (hd : Sys2Proof.decode (.wire bytes) = .error e) : take (.wire bytes) s = exec (.decode bytes) s := by
  simp only [take, hd]

/-! ### The obligations -/

/-- Settles O24: a response's kind bounds its statuses, and each is the answer to some operands. -/
theorem statusesOfEachOperation : Obligations.StatusesOfEachOperation := fun s =>
  ⟨fun level x => returns_encodePwm_iff level s x, exists_returns_encodeGeneric_iff s,
    fun bytes x => returns_checksum_iff bytes s x, exists_returns_decode_iff s⟩

/-- Settles O25: the queue is as it was, and the response record has no room for more than the status. -/
theorem errorsDeliverNothingElse : Obligations.ErrorsDeliverNothingElse := by
  intro i s t r ht _
  obtain ⟨r', -, hexec⟩ := exec_eq i s
  cases hexec.symm.trans ht
  exact ⟨rfl, status_ne_ioError r, carries_nothing_of_status_ne_ok r⟩

/-- Settles O8. -/
theorem unlistedFramesRunAsDecode : Obligations.UnlistedFramesRunAsDecode :=
  ⟨fun s bytes rest e hp hd => (step_cons s _ rest hp).trans (take_wire_of_decode_error bytes e _ hd), step_nil⟩

end Sys2Proof.Machine

end

/-! ## Reset and hazards: no step stops, and what damage to a frame `decode` finds

The proofs of the family 70_reset_and_hazards.md. First the tests that `decode` makes on an accepted frame, made again on
a sequence with the same bytes at offsets 0 and 3: another length is found, the same length and XOR are not; then the
obligations. -/

section

namespace Sys2Proof.Machine

/-! ### Sequences that keep the bytes at offsets 0 and 3 of an accepted frame -/

/-- Five bytes or more that pass the tests of the header, the length and the fold are accepted: the converse of
`tests_of_decodeFrame_success`. -/
theorem decodeFrame_success_of_tests (IN : List Byte) (h0 : IN.getD 0 0 = 0xAA)
    (h3 : IN.length = 5 + (IN.getD 3 0).toNat) (hsum : checksum IN = 0) :
    ∃ p, decodeFrame IN = some (.success p) := by
  obtain ⟨b0, b1, b2, b3, d, c, rfl⟩ := exists_fields_of_length IN (by omega)
  obtain rfl : b0 = 0xAA := h0
  have hd : d.length = b3.toNat := Nat.add_left_cancel ((fields_length ..).symm.trans h3)
  have hc : checksum (0xAA :: b1 :: b2 :: b3 :: d) = c :=
    (checksum_concat_eq_zero_iff (0xAA :: b1 :: b2 :: b3 :: d) c).1 hsum
  exact ⟨_, by rw [decodeFrame_fields, if_neg (not_not.2 rfl), if_neg (not_not.2 hd), if_neg (not_not.2 hc)]⟩

theorem getD_eq_of_getElem? {α : Type} {s t : List α} {n : Nat} (h : s[n]? = t[n]?) (x : α) :
    s.getD n x = t.getD n x := by
  rw [List.getD_eq_getElem?_getD, List.getD_eq_getElem?_getD, h]

section KeptHeaderAndLength

variable {f g : List Byte} {p : Packet} (hf : decodeFrame f = some (.success p)) (h0 : g[0]? = f[0]?)
  (h3 : g[3]? = f[3]?)
include hf h0 h3

/-- The Length byte asks for the old length, so another one is found (42_generic_encode_decode.md R151 (d)). -/
theorem decodeFrame_lengthMismatch_of_length_ne (h5 : 5 ≤ g.length) (hlen : g.length ≠ f.length) :
    decodeFrame g = some (.failure .lengthMismatch) := by
  obtain ⟨hheader, hlength, -⟩ := tests_of_decodeFrame_success f p hf
  refine decodeFrame_lengthMismatch g h5 ((getD_eq_of_getElem? h0 0).trans hheader) ?_
  rwa [getD_eq_of_getElem? h3, ← hlength]

/-- The fold is the only test that reads the other bytes (70_reset_and_hazards.md R217). -/
theorem decodeFrame_success_of_checksum_eq (hlen : g.length = f.length) (hsum : checksum g = checksum f) :
    ∃ q, decodeFrame g = some (.success q) := by
  obtain ⟨hheader, hlength, hzero⟩ := tests_of_decodeFrame_success f p hf
  refine decodeFrame_success_of_tests g ((getD_eq_of_getElem? h0 0).trans hheader) ?_ (hsum.trans hzero)
  rw [hlen, getD_eq_of_getElem? h3, hlength]

end KeptHeaderAndLength

/-! ### Truncated and extended frames -/

theorem five_le_length_of_decodeFrame_success (f : List Byte) (p : Packet) (hf : decodeFrame f = some (.success p)) :
    5 ≤ f.length := by
  obtain ⟨-, hlength, -⟩ := tests_of_decodeFrame_success f p hf
  omega

/-- The first bytes of an accepted frame, not all of them (70_reset_and_hazards.md R211). -/
theorem decodeFrame_take (f : List Byte) (p : Packet) (n : Nat) (hf : decodeFrame f = some (.success p))
    (hn : n < f.length) :
    decodeFrame (f.take n) = some (.failure (if n < 5 then .tooShort else .lengthMismatch)) := by
  have hlen : (f.take n).length = n := List.length_take_of_le hn.le
  by_cases h5 : n < 5
  · rw [if_pos h5]
    exact decodeFrame_tooShort _ (by omega)
  · rw [if_neg h5]
    exact decodeFrame_lengthMismatch_of_length_ne hf (List.getElem?_take_of_lt (by omega))
      (List.getElem?_take_of_lt (by omega)) (by omega) (by omega)

/-- Bytes after an accepted frame (42_generic_encode_decode.md R151 (d)). -/
theorem decodeFrame_append (f extra : List Byte) (p : Packet) (hf : decodeFrame f = some (.success p))
    (hextra : extra ≠ []) : decodeFrame (f ++ extra) = some (.failure .lengthMismatch) := by
  have h5 := five_le_length_of_decodeFrame_success f p hf
  have hlen : (f ++ extra).length = f.length + extra.length := List.length_append
  have hpos := List.length_pos_iff.2 hextra
  exact decodeFrame_lengthMismatch_of_length_ne hf (List.getElem?_append_left (by omega))
    (List.getElem?_append_left (by omega)) (by omega) (by omega)

/-! ### The obligations -/

/-- Settles O10: with nothing presented the state stays, and whatever is presented is taken and answered. -/
theorem everyStepAnswersNext : Obligations.EveryStepAnswersNext := by
  intro s
  cases hp : s.presented with
  | nil => exact ⟨s, step_nil s hp, hp⟩
  | cons h rest =>
    obtain ⟨t, ht, hqueue, -⟩ := take_answers h { s with presented := rest }
    exact ⟨t, (step_cons s h rest hp).trans ht, hqueue⟩

/-- Settles O47: an emitted frame is accepted, and an accepted frame tells its own length. -/
theorem truncatedOrExtendedFramesAreRejected : Obligations.TruncatedOrExtendedFramesAreRejected := by
  refine ⟨fun f n hf hn => ?_, fun f extra hf hextra => ?_⟩
  · obtain ⟨p, hp⟩ := decodeFrame_of_emitted f hf
    exact decodeFrame_take f p n hp hn
  · obtain ⟨p, hp⟩ := decodeFrame_of_emitted f hf
    exact decodeFrame_append f extra p hp hextra

/-- Settles O48: either way the fold is the same, and the fold is all that `decode` tests of the changed bytes. -/
theorem undetectedDamageIsAccepted : Obligations.UndetectedDamageIsAccepted := by
  intro f g p hf hlen h0 h3 hdamage
  have hsum : checksum g = checksum f := by
    obtain hxor | hperm := hdamage
    · rw [checksum_eq_xorOf, checksum_eq_xorOf, hxor]
    · exact checksum_perm g f hperm
  exact decodeFrame_success_of_checksum_eq hf h0 h3 hlen hsum

end Sys2Proof.Machine

end
